-- ==== Sys2Proof/Word.lean ====
section
/-! DEFINITION. The plain word types of the block (spec/00_scope.md R5) and the code words of
spec/opcode_table.json's four formats (spec/30_encoding.md R74). -/

namespace Sys2Proof

/-- One input character, `CHAR_W` = 8 bits (R5, R64). -/
abbrev Char8 := BitVec 8

/-- One payload byte, `BYTE_W` = 8 bits (R5). -/
abbrev Byte := BitVec 8

/-- One code word of the opcode table, by the row's `format` (R74). Only `op` words stand on the
port of R73; the other three are the table's further kinds of row (log entries 7, 8 and 9). -/
inductive CodeWord where
  /-- The command word: `cmd_op`, `cmd_len` and the character lanes `cmd_chars` (R72, R73).
  A lane that the list does not reach carries 0 (log entry 11). -/
  | op (cmdOp : BitVec 3) (cmdLen : BitVec 16) (cmdChars : List Char8)
  /-- A FEED together with the phase that selects its dispatch target: the 6-bit pair
  phase code, `cmd_op` (R74). -/
  | feed (sel : BitVec 6) (cmdLen : BitVec 16) (cmdChars : List Char8)
  /-- The characters of one record of the wire format (R60). -/
  | record (chars : List Char8)
  /-- One character (R64). -/
  | char (c : Char8)
deriving DecidableEq, Repr

/-- What the host presents to the port in one cycle (R73). -/
structure PortCycle where
  /-- Hardware reset, wins over any command (R160). -/
  rst : Bool
  /-- A command is applied in this cycle. -/
  valid : Bool
  /-- The command; without meaning where `valid` is false. -/
  word : CodeWord
deriving DecidableEq, Repr

end Sys2Proof
end

