-- ==== Sys2Proof/Machine/Operands.lean ====
section
/-! DEFINITION. The hex-digit decoder and operand assembly: how characters of a chunk become values
(spec/40_hex_decoder.md, spec/20_memory.md section 2, spec/30_encoding.md R67). -/

namespace Sys2Proof.Machine

/-- The start delimiter, code 0x3A (R64). -/
def startDelimiter : Char8 := 0x3A#8

/-- The character '0', code 0x30 (R64). -/
def charZero : Char8 := 0x30#8

/-- The character '1', code 0x31 (R64). -/
def charOne : Char8 := 0x31#8

/-- `isHexDigit(c)`: the three ranges of hex digits (R90). -/
def isHexDigit (c : Char8) : Bool :=
  (0x30#8 ≤ c && c ≤ 0x39#8) || (0x41#8 ≤ c && c ≤ 0x46#8) || (0x61#8 ≤ c && c ≤ 0x66#8)

/-- `decodeDigit(c)` on the hex digits (R91); no value elsewhere (R92). -/
def decodeDigit (c : Char8) : Option (BitVec 4) :=
  if 0x30#8 ≤ c ∧ c ≤ 0x39#8 then some ((c - 0x30#8).setWidth 4)
  else if 0x41#8 ≤ c ∧ c ≤ 0x46#8 then some ((c - 0x41#8 + 10#8).setWidth 4)
  else if 0x61#8 ≤ c ∧ c ≤ 0x66#8 then some ((c - 0x61#8 + 10#8).setWidth 4)
  else none

/-- `decodeByte(high, low) = decodeDigit(high) << 4 | decodeDigit(low)` (R93, R44); no value where
an operand is not a hex digit. -/
def decodeByte (high low : Char8) : Option Byte :=
  match decodeDigit high, decodeDigit low with
  | some h, some l => some ((h.setWidth 8 <<< 4) ||| l.setWidth 8)
  | _, _ => none

/-- The bytes of a hex field, pair by pair in wire order (R46, R62); no value where a character is
not a hex digit (R105) or a pair is cut short. -/
def decodeBytes : List Char8 → Option (List Byte)
  | [] => some []
  | [_] => none
  | high :: low :: rest =>
    match decodeByte high low, decodeBytes rest with
    | some b, some bs => some (b :: bs)
    | _, _ => none

/-- The 16-bit address of its two bytes, the most significant one first (R45). -/
def joinAddr (hi lo : Byte) : BitVec 16 :=
  (hi.setWidth 16 <<< 8) ||| lo.setWidth 16

/-- The chunk of `n` characters that the character lanes present; a lane the list does not reach
carries 0 (R73, log entry 11). -/
def chunkOfLanes : Nat → List Char8 → List Char8
  | 0, _ => []
  | n + 1, [] => 0#8 :: chunkOfLanes n []
  | n + 1, c :: cs => c :: chunkOfLanes n cs

end Sys2Proof.Machine
end

