-- ==== Sys2Proof/Config.lean ====
section
/-! DEFINITION. The parameters of the block (spec/00_scope.md R5) and the values that the spec
leaves free: each is a constant with no body, so that nothing can be proved of it beyond its type. -/

namespace Sys2Proof

/-- `MAX_PAYLOAD`: the size of the payload buffer (R5, R28). -/
abbrev Config.maxPayload : Nat := 50

/-- The number of character lanes of the command port (R73, decision D22). -/
abbrev Config.chunkLanes : Nat := 100

/-- FREE VALUE (log entry 2): the request that the k-th failing FEED returns when its cause is a
length mismatch is one more than this, so any positive 16-bit number (R104). -/
opaque Config.lenErrReq : Nat → Fin 65535

/-- FREE VALUE (log entry 2): the request that the k-th failing FEED returns for every other cause,
any 16-bit number (R104). -/
opaque Config.errReq : Nat → BitVec 16

/-- FREE VALUE (log entry 1): `Config.powerOnByte k i` is what `buf[i]` holds after the k-th
hardware reset and until it is written (R35, R163). -/
opaque Config.powerOnByte : Nat → Nat → Byte

end Sys2Proof
end

