-- ==== Sys2Proof/Machine/State.lean ====
section
/-! DEFINITION. The state of one parser and of its port (spec/10_state.md), the reasons a step can
stop, and the state after hardware reset. -/

namespace Sys2Proof.Machine

/-- The state cursor `phase` (R20). -/
inductive Phase where
  | awaitStart
  | awaitByteCount
  | awaitAddress
  | awaitRecordType
  | awaitData
  | awaitChecksum
  | error
deriving DecidableEq, Repr

/-- The record type `recType` (R26). -/
inductive RecType where
  | invalid
  | data
  | endOfFile
deriving DecidableEq, Repr

/-- The label of the validation failure that a FEED meets (R140). The hardware records none: it
decides nothing but which draw the failing FEED returns (R104). -/
inductive Cause where
  | len | start | type | csum | count | hex
deriving DecidableEq, Repr

/-- The Record that GET_RECORD returns (R122). -/
structure Record where
  recordType : RecType
  address : BitVec 16
  payloadLength : BitVec 8
  payload : List Byte
deriving DecidableEq, Repr

/-- What the last operation returned (log entry 6). -/
inductive Response where
  /-- Nothing, or nothing that the spec fixes. -/
  | none
  /-- FEED's returned request, a number of characters (R101, R104, R116). -/
  | request (n : Nat)
  /-- The result of IS_READY or GET_ERROR (R120, R121). -/
  | flag (b : Bool)
  /-- The result of GET_TYPE (R123). -/
  | recType (t : RecType)
  /-- The result of GET_RECORD (R122). -/
  | record (r : Record)
  /-- The hex-digit decoder's answer on one character: its value, or none where it is no hex digit
  (R90, R91; log entry 9). -/
  | digit (v : Option (BitVec 4))
deriving DecidableEq, Repr

/-- The payload buffer: the bytes written since hardware reset with their indices, rising (R40).
An index that is not listed has not been written (log entry 1). -/
abbrev Memory := List Host.Cell

/-- The state of one parser instance, and of the port it stands at. -/
structure State where
  /-- The state cursor (R20). -/
  phase : Phase
  /-- The expected byte count (R22). -/
  expCount : BitVec 8
  /-- The address accumulator (R23). -/
  addr : BitVec 16
  /-- The running checksum accumulator (R24). -/
  acc : BitVec 16
  /-- The payload length (R25). -/
  payLen : BitVec 8
  /-- The last-decoded record type (R26). -/
  recType : RecType
  /-- The payload buffer (R28, R40). -/
  buf : Memory
  /-- The model's own: what the last operation returned (log entry 6). -/
  rsp : Response
  /-- The model's own: the cycles that the host has yet to present (log entry 5). -/
  input : List PortCycle
  /-- The model's own: how many failing FEEDs have drawn a request (log entry 2). -/
  draws : Nat
  /-- The model's own: which hardware reset the unwritten bytes of `buf` come from (log entry 1). -/
  powerOns : Nat
deriving DecidableEq, Repr

/-- The reasons for which a step stops with a fault. -/
inductive Fault where
  /-- Raised by the block access to `buf` (FEED.DATA, GET_RECORD) that would reach an index outside
  0 to 49, which R40 says is never generated. Safe: no reachable state raises it (log entry 12). -/
  | bufferIndex
deriving DecidableEq, Repr

/-- The reasons for which a step has no meaning. -/
inductive Refusal where
  /-- Raised by an arm of exec that has no meaning yet; no arm answers with it now. Safe. -/
  | notModelled (mnemonic : String)
  /-- Raised by a FEED dispatch row (FEED.START to FEED.ERR) run in another phase than the one that
  selects it, where the spec gives it no effect (R71, R100). Safe (log entry 7). -/
  | notDispatched (selectedBy : Phase)
  /-- Raised by step on a 6-bit selector that is no row of the table: no FEED, or phase code 7, which
  is never produced (R74, R79). Safe (log entry 7). -/
  | noDispatchRow
deriving DecidableEq, Repr

/-- The state after hardware reset (R35, R160, R162), with no host script loaded. -/
def State.reset : State where
  phase := .awaitStart
  expCount := 0#8
  addr := 0#16
  acc := 0#16
  payLen := 0#8
  recType := .invalid
  buf := []
  rsp := .none
  input := []
  draws := 0
  powerOns := 0

end Sys2Proof.Machine
end

