-- ==== Sys2Proof/Machine/Flags.lean ====
section
/-! DEFINITION. The values derived from the state (spec/10_state.md section 4) and the running
checksum's arithmetic (spec/41_feed.md R103). -/

namespace Sys2Proof.Machine

/-- `Expect(state)`: the number of characters the next FEED must carry (R29). -/
def expect (s : State) : Nat :=
  match s.phase with
  | .awaitStart => 1
  | .awaitByteCount => 2
  | .awaitAddress => 4
  | .awaitRecordType => 2
  | .awaitData => 2 * s.expCount.toNat
  | .awaitChecksum => 2
  | .error => 0

/-- `Ready(state)`: a checked record is available (R30). -/
def ready (s : State) : Bool :=
  decide (s.phase = .awaitStart ∧ s.recType ≠ .invalid)

/-- `Err(state)`: the parser is in its terminal error phase (R31). -/
def err (s : State) : Bool :=
  decide (s.phase = .error)

/-- `acc <- acc + b`, modulo 2^16 (R103). -/
def accAdd (acc : BitVec 16) (b : Byte) : BitVec 16 :=
  acc + b.setWidth 16

/-- `acc` with the bytes of a field added one after the other (R103). -/
def accAddAll (acc : BitVec 16) (bs : List Byte) : BitVec 16 :=
  bs.foldl accAdd acc

/-- The validity test of the checksum phase: `trunc_8(t) = 0` (R103, R115). -/
def sumIsZero (t : BitVec 16) : Bool :=
  t.setWidth 8 == 0#8

end Sys2Proof.Machine
end

