-- ==== Sys2Proof/Machine/Ops.lean ====
section
/-! DEFINITION. The named operations over the buffer and the registers: block writes and reads of
`buf` (spec/20_memory.md), entering the Error phase (spec/60_exceptions.md R149) and leaving it
(spec/43_reset.md R130), hardware reset (spec/70_reset_and_hazards.md R160), register codes. -/

namespace Sys2Proof.Machine

/-- The buffer's canonical form: indices strictly rising, each below `MAX_PAYLOAD`. A byte that has
been written stays listed, whatever its value: no value is known to be what an unwritten index
holds (log entry 1). -/
abbrev Memory.wf (m : Memory) : Prop :=
  m.Pairwise (fun a b => a.1 < b.1) ∧ ∀ c ∈ m, c.1 < Config.maxPayload

/-- The byte written last at an index, if one has been. -/
def Memory.read (m : Memory) (i : Nat) : Option Byte :=
  match m with
  | [] => none
  | (a, b) :: rest => if a = i then some b else Memory.read rest i

/-- `MemWrite(i, 1, v)`, keeping the indices rising (R9). -/
def Memory.write (m : Memory) (i : Nat) (v : Byte) : Memory :=
  match m with
  | [] => [(i, v)]
  | (a, b) :: rest =>
    if i < a then (i, v) :: (a, b) :: rest
    else if i = a then (i, v) :: rest
    else (a, b) :: Memory.write rest i v

/-- Bytes written at ascending indices from `i` on (R46). -/
def Memory.writeBlock (m : Memory) (i : Nat) : List Byte → Memory
  | [] => m
  | v :: vs => Memory.writeBlock (Memory.write m i v) (i + 1) vs

/-- `MemRead(i, 1)`: the byte `buf[i]`; where nothing has written it since hardware reset, a free
value (R9, R163). -/
def bufByte (s : State) (i : Nat) : Byte :=
  match Memory.read s.buf i with
  | some b => b
  | none => Config.powerOnByte s.powerOns i

/-- The bytes `buf[0..n-1]` in ascending order (R46). -/
def bufBytes (s : State) (n : Nat) : List Byte :=
  (List.range n).map (bufByte s)

/-- The state with an operation's result on the response (log entry 6). -/
def respond (r : Response) (s : State) : State :=
  { s with rsp := r }

/-- A successful FEED returns the request of the state it leaves (R101). -/
def accept (s : State) : State :=
  respond (.request (expect s)) s

/-- The draw `errReq` of the k-th failing FEED: positive when the cause is LEN, otherwise any
16-bit number (R104). -/
def errReq (cause : Cause) (k : Nat) : Nat :=
  match cause with
  | .len => (Config.lenErrReq k).val + 1
  | .start => (Config.errReq k).toNat
  | .type => (Config.errReq k).toNat
  | .csum => (Config.errReq k).toNat
  | .count => (Config.errReq k).toNat
  | .hex => (Config.errReq k).toNat

/-- `raise Error(cause)`: entry to the Error phase. `phase <- Error`, no other register and no
buffer byte is written, the FEED returns the draw (R11, R102, R149). -/
def raiseError (cause : Cause) (s : State) : State :=
  { s with phase := .error, rsp := .request (errReq cause s.draws), draws := s.draws + 1 }

/-- The RESET operation's writes, the only way an operation leaves the Error phase (R130, R151). -/
def resetParser (s : State) : State :=
  { s with phase := .awaitStart, recType := .invalid, acc := 0#16, rsp := .none }

/-- Hardware reset: the registers of R35's column, the buffer unspecified anew (R160). The host's
input is not the parser's and stays. -/
def hardwareReset (s : State) : State :=
  { s with
    phase := .awaitStart, expCount := 0#8, addr := 0#16, acc := 0#16, payLen := 0#8,
    recType := .invalid, buf := [], rsp := .none, powerOns := s.powerOns + 1 }

/-- The 3-bit register code of a phase (R20). -/
def phaseCode : Phase → BitVec 3
  | .awaitStart => 0#3
  | .awaitByteCount => 1#3
  | .awaitAddress => 2#3
  | .awaitRecordType => 3#3
  | .awaitData => 4#3
  | .awaitChecksum => 5#3
  | .error => 6#3

/-- The phase of a 3-bit register code; code 7 is never produced (R20). -/
def phaseOfCode (c : BitVec 3) : Option Phase :=
  match c.toNat with
  | 0 => some .awaitStart
  | 1 => some .awaitByteCount
  | 2 => some .awaitAddress
  | 3 => some .awaitRecordType
  | 4 => some .awaitData
  | 5 => some .awaitChecksum
  | 6 => some .error
  | _ => none

/-- The 2-bit register code of a record type (R26). -/
def recTypeCode : RecType → BitVec 2
  | .invalid => 0#2
  | .data => 1#2
  | .endOfFile => 2#2

end Sys2Proof.Machine
end

