-- ==== Sys2Proof/Machine/Feed.lean ====
section
/-! DEFINITION. The FEED operation and its seven dispatch targets (spec/41_feed.md). -/

namespace Sys2Proof.Machine

/-- FEED.START's work on its field (R110). -/
def startField (chunk : List Char8) (s : State) : Host.Outcome State Fault Refusal :=
  match chunk with
  | [c] =>
    if c = startDelimiter then
      .next (accept { s with recType := .invalid, acc := 0#16, phase := .awaitByteCount })
    else .next (raiseError .start s)
  | _ => .next (raiseError .len s)

/-- FEED.COUNT's work on its field `BB` (R111). -/
def countField (chunk : List Char8) (s : State) : Host.Outcome State Fault Refusal :=
  match decodeBytes chunk with
  | some [b] =>
    .next (accept { s with expCount := b, acc := accAdd s.acc b, phase := .awaitAddress })
  | _ => .next (raiseError .hex s)

/-- FEED.ADDR's work on its field `AAAA` (R112). -/
def addrField (chunk : List Char8) (s : State) : Host.Outcome State Fault Refusal :=
  match decodeBytes chunk with
  | some [hi, lo] =>
    .next (accept { s with
      addr := joinAddr hi lo, acc := accAdd (accAdd s.acc hi) lo, phase := .awaitRecordType })
  | _ => .next (raiseError .hex s)

/-- FEED.TYPE's work on its field `TT`, compared as characters (R113). -/
def typeField (chunk : List Char8) (s : State) : Host.Outcome State Fault Refusal :=
  if chunk = [charZero, charZero] then
    if Config.maxPayload < s.expCount.toNat then .next (raiseError .count s)
    else .next (accept { s with acc := accAdd s.acc 0#8, phase := .awaitData })
  else if chunk = [charZero, charOne] then
    .next (accept { s with
      acc := accAdd s.acc 1#8, recType := .endOfFile, phase := .awaitChecksum })
  else .next (raiseError .type s)

/-- FEED.DATA's work on its field `DD...` (R114): all characters are checked before anything is
written (R105). A count above `MAX_PAYLOAD` never meets this phase (R34, R40). -/
def dataField (chunk : List Char8) (s : State) : Host.Outcome State Fault Refusal :=
  match decodeBytes chunk with
  | some bytes =>
    if Config.maxPayload < s.expCount.toNat then .fault .bufferIndex
    else .next (accept { s with
      buf := Memory.writeBlock s.buf 0 bytes, acc := accAddAll s.acc bytes,
      recType := .data, payLen := s.expCount, phase := .awaitChecksum })
  | none => .next (raiseError .hex s)

/-- FEED.CSUM's work on its field `CC` (R115). A failing check leaves `acc` unwritten (R102). -/
def csumField (chunk : List Char8) (s : State) : Host.Outcome State Fault Refusal :=
  match decodeBytes chunk with
  | some [c] =>
    if sumIsZero (accAdd s.acc c) then
      .next (accept { s with acc := accAdd s.acc c, phase := .awaitStart })
    else .next (raiseError .csum s)
  | _ => .next (raiseError .hex s)

/-- FEED.ERR's work: nothing is written and 0 is returned, whatever the chunk (R116). -/
def inertFeed (s : State) : Host.Outcome State Fault Refusal :=
  .next (respond (.request 0) s)

/-- The length check that comes before any look at the characters (R102). -/
def lengthChecked (field : List Char8 → State → Host.Outcome State Fault Refusal)
    (chunk : List Char8) (s : State) : Host.Outcome State Fault Refusal :=
  if chunk.length = expect s then field chunk s else .next (raiseError .len s)

/-- A dispatch row of FEED has its meaning in the phase that selects it, and none elsewhere: the
host does not choose among the rows (R71, log entry 7). -/
def selectedBy (p : Phase) (s : State) (meaning : Host.Outcome State Fault Refusal) :
    Host.Outcome State Fault Refusal :=
  if s.phase = p then meaning else .refused (.notDispatched p)

/-- FEED: dispatched on the phase (R100). -/
def execFeed (chunk : List Char8) (s : State) : Host.Outcome State Fault Refusal :=
  match s.phase with
  | .error => inertFeed s
  | .awaitStart => lengthChecked startField chunk s
  | .awaitByteCount => lengthChecked countField chunk s
  | .awaitAddress => lengthChecked addrField chunk s
  | .awaitRecordType => lengthChecked typeField chunk s
  | .awaitData => lengthChecked dataField chunk s
  | .awaitChecksum => lengthChecked csumField chunk s

/-- FEED.START (R110). -/
def execFeedStart (chunk : List Char8) (s : State) : Host.Outcome State Fault Refusal :=
  selectedBy .awaitStart s (lengthChecked startField chunk s)

/-- FEED.COUNT (R111). -/
def execFeedCount (chunk : List Char8) (s : State) : Host.Outcome State Fault Refusal :=
  selectedBy .awaitByteCount s (lengthChecked countField chunk s)

/-- FEED.ADDR (R112). -/
def execFeedAddr (chunk : List Char8) (s : State) : Host.Outcome State Fault Refusal :=
  selectedBy .awaitAddress s (lengthChecked addrField chunk s)

/-- FEED.TYPE (R113). -/
def execFeedType (chunk : List Char8) (s : State) : Host.Outcome State Fault Refusal :=
  selectedBy .awaitRecordType s (lengthChecked typeField chunk s)

/-- FEED.DATA (R114). -/
def execFeedData (chunk : List Char8) (s : State) : Host.Outcome State Fault Refusal :=
  selectedBy .awaitData s (lengthChecked dataField chunk s)

/-- FEED.CSUM (R115). -/
def execFeedCsum (chunk : List Char8) (s : State) : Host.Outcome State Fault Refusal :=
  selectedBy .awaitChecksum s (lengthChecked csumField chunk s)

/-- FEED.ERR (R116): the chunk is not examined. -/
def execFeedErr (_chunk : List Char8) (s : State) : Host.Outcome State Fault Refusal :=
  selectedBy .error s (inertFeed s)

end Sys2Proof.Machine
end

