-- ==== Sys2Proof/Machine/Chars.lean ====
section
/-! DEFINITION. The CHAR rows (spec/30_encoding.md R64, R74): the start delimiter is a field of its
own and is fed (R110); a hex digit is put through the hex-digit decoder, which has no state
(spec/40_hex_decoder.md R90, R91, R94). Log entry 9. -/

namespace Sys2Proof.Machine

/-- The hex-digit decoder applied to one character: its value, or none where it is no hex digit;
no register is read or written (R90, R91, R94). -/
def decodeCharacter (c : Char8) (s : State) : State :=
  respond (.digit (decodeDigit c)) s

/-- CHAR.START: the start delimiter, fed as the one-character field it is (R62, R110). -/
def execCharStart (s : State) : Host.Outcome State Fault Refusal :=
  execFeed [startDelimiter] s

/-- CHAR.HEX_0 (R91). -/
def execCharHex0 (s : State) : Host.Outcome State Fault Refusal :=
  .next (decodeCharacter 0x30#8 s)

/-- CHAR.HEX_1 (R91). -/
def execCharHex1 (s : State) : Host.Outcome State Fault Refusal :=
  .next (decodeCharacter 0x31#8 s)

/-- CHAR.HEX_2 (R91). -/
def execCharHex2 (s : State) : Host.Outcome State Fault Refusal :=
  .next (decodeCharacter 0x32#8 s)

/-- CHAR.HEX_3 (R91). -/
def execCharHex3 (s : State) : Host.Outcome State Fault Refusal :=
  .next (decodeCharacter 0x33#8 s)

/-- CHAR.HEX_4 (R91). -/
def execCharHex4 (s : State) : Host.Outcome State Fault Refusal :=
  .next (decodeCharacter 0x34#8 s)

/-- CHAR.HEX_5 (R91). -/
def execCharHex5 (s : State) : Host.Outcome State Fault Refusal :=
  .next (decodeCharacter 0x35#8 s)

/-- CHAR.HEX_6 (R91). -/
def execCharHex6 (s : State) : Host.Outcome State Fault Refusal :=
  .next (decodeCharacter 0x36#8 s)

/-- CHAR.HEX_7 (R91). -/
def execCharHex7 (s : State) : Host.Outcome State Fault Refusal :=
  .next (decodeCharacter 0x37#8 s)

/-- CHAR.HEX_8 (R91). -/
def execCharHex8 (s : State) : Host.Outcome State Fault Refusal :=
  .next (decodeCharacter 0x38#8 s)

/-- CHAR.HEX_9 (R91). -/
def execCharHex9 (s : State) : Host.Outcome State Fault Refusal :=
  .next (decodeCharacter 0x39#8 s)

/-- CHAR.HEX_A (R91). -/
def execCharHexUpA (s : State) : Host.Outcome State Fault Refusal :=
  .next (decodeCharacter 0x41#8 s)

/-- CHAR.HEX_B (R91). -/
def execCharHexUpB (s : State) : Host.Outcome State Fault Refusal :=
  .next (decodeCharacter 0x42#8 s)

/-- CHAR.HEX_C (R91). -/
def execCharHexUpC (s : State) : Host.Outcome State Fault Refusal :=
  .next (decodeCharacter 0x43#8 s)

/-- CHAR.HEX_D (R91). -/
def execCharHexUpD (s : State) : Host.Outcome State Fault Refusal :=
  .next (decodeCharacter 0x44#8 s)

/-- CHAR.HEX_E (R91). -/
def execCharHexUpE (s : State) : Host.Outcome State Fault Refusal :=
  .next (decodeCharacter 0x45#8 s)

/-- CHAR.HEX_F (R91). -/
def execCharHexUpF (s : State) : Host.Outcome State Fault Refusal :=
  .next (decodeCharacter 0x46#8 s)

/-- CHAR.HEX_a (R91). -/
def execCharHexLoA (s : State) : Host.Outcome State Fault Refusal :=
  .next (decodeCharacter 0x61#8 s)

/-- CHAR.HEX_b (R91). -/
def execCharHexLoB (s : State) : Host.Outcome State Fault Refusal :=
  .next (decodeCharacter 0x62#8 s)

/-- CHAR.HEX_c (R91). -/
def execCharHexLoC (s : State) : Host.Outcome State Fault Refusal :=
  .next (decodeCharacter 0x63#8 s)

/-- CHAR.HEX_d (R91). -/
def execCharHexLoD (s : State) : Host.Outcome State Fault Refusal :=
  .next (decodeCharacter 0x64#8 s)

/-- CHAR.HEX_e (R91). -/
def execCharHexLoE (s : State) : Host.Outcome State Fault Refusal :=
  .next (decodeCharacter 0x65#8 s)

/-- CHAR.HEX_f (R91). -/
def execCharHexLoF (s : State) : Host.Outcome State Fault Refusal :=
  .next (decodeCharacter 0x66#8 s)

end Sys2Proof.Machine
end

