-- ==== Sys2Proof/Machine/Control.lean ====
section
/-! DEFINITION. RESET (spec/43_reset.md) and the two reserved operation codes
(spec/30_encoding.md R79). -/

namespace Sys2Proof.Machine

/-- RESET (R130). -/
def execReset (s : State) : Host.Outcome State Fault Refusal :=
  .next (resetParser s)

/-- What the hardware does with a reserved operation code: it ignores the command. No state changes
and no response is fixed (R79, log entry 4). -/
def ignored (s : State) : State :=
  respond .none s

/-- The reserved operation code 0b110 (R79). -/
def execReserved6 (s : State) : Host.Outcome State Fault Refusal :=
  .next (ignored s)

/-- The reserved operation code 0b111 (R79). -/
def execReserved7 (s : State) : Host.Outcome State Fault Refusal :=
  .next (ignored s)

end Sys2Proof.Machine
end

