-- ==== Sys2Proof/Machine/Query.lean ====
section
/-! DEFINITION. The four operations that read the parser and change none of its state
(spec/42_query.md). -/

namespace Sys2Proof.Machine

/-- The length GET_RECORD reports: `payLen` for a Data record, 0 for every other type (R122). -/
def reportedLength (s : State) : BitVec 8 :=
  match s.recType with
  | .data => s.payLen
  | .endOfFile => 0#8
  | .invalid => 0#8

/-- The Record that GET_RECORD returns (R122). -/
def recordOf (s : State) : Record where
  recordType := s.recType
  address := s.addr
  payloadLength := reportedLength s
  payload := bufBytes s (reportedLength s).toNat

/-- IS_READY (R120). -/
def execIsReady (s : State) : Host.Outcome State Fault Refusal :=
  .next (respond (.flag (ready s)) s)

/-- GET_ERROR (R121). -/
def execGetError (s : State) : Host.Outcome State Fault Refusal :=
  .next (respond (.flag (err s)) s)

/-- GET_RECORD (R122). A length above `MAX_PAYLOAD` is held by no reachable state (R34). -/
def execGetRecord (s : State) : Host.Outcome State Fault Refusal :=
  if Config.maxPayload < (reportedLength s).toNat then .fault .bufferIndex
  else .next (respond (.record (recordOf s)) s)

/-- GET_TYPE (R123). -/
def execGetType (s : State) : Host.Outcome State Fault Refusal :=
  .next (respond (.recType s.recType) s)

end Sys2Proof.Machine
end

