-- ==== Sys2Proof/Syntax.lean ====
section
/-! DEFINITION. The instructions: one constructor per row of spec/opcode_table.json, 40 rows in the
four formats OP, FEED, REC and CHAR (spec/30_encoding.md R74). -/

namespace Sys2Proof

/-- The two characters of one byte on the wire, the earlier one first (R44). -/
structure CharPair where
  first : Char8
  second : Char8
deriving DecidableEq, Repr

/-- One constructor per row of the opcode table, in the table's order. -/
inductive Instr where
  /-- FEED of a chunk (R68, R100). -/
  | feed (chunk : List Char8)
  /-- IS_READY (R120). -/
  | isReady
  /-- GET_RECORD (R122). -/
  | getRecord
  /-- GET_ERROR (R121). -/
  | getError
  /-- GET_TYPE (R123). -/
  | getType
  /-- RESET (R130). -/
  | reset
  /-- The reserved operation code 0b110 (R79). -/
  | reserved6
  /-- The reserved operation code 0b111 (R79). -/
  | reserved7
  /-- FEED.START: FEED dispatched in phase AwaitStart (R110). -/
  | feedStart (chunk : List Char8)
  /-- FEED.COUNT: FEED dispatched in phase AwaitByteCount (R111). -/
  | feedCount (chunk : List Char8)
  /-- FEED.ADDR: FEED dispatched in phase AwaitAddress (R112). -/
  | feedAddr (chunk : List Char8)
  /-- FEED.TYPE: FEED dispatched in phase AwaitRecordType (R113). -/
  | feedType (chunk : List Char8)
  /-- FEED.DATA: FEED dispatched in phase AwaitData (R114). -/
  | feedData (chunk : List Char8)
  /-- FEED.CSUM: FEED dispatched in phase AwaitChecksum (R115). -/
  | feedCsum (chunk : List Char8)
  /-- FEED.ERR: FEED dispatched in phase Error (R116). -/
  | feedErr (chunk : List Char8)
  /-- REC.DATA: a record of the Data layout; the fields `BB`, `AAAA`, `DD...`, `CC` as characters
  (R61). -/
  | recData (bb addrHi addrLo : CharPair) (dd : List Char8) (cc : CharPair)
  /-- REC.EOF: a record of the End-of-File layout; the fields `BB`, `AAAA`, `CC` (R61). -/
  | recEof (bb addrHi addrLo cc : CharPair)
  /-- CHAR.START: the start delimiter (R64, R110). -/
  | charStart
  /-- CHAR.HEX_0 to CHAR.HEX_9 (R64, R91). -/
  | charHex0 | charHex1 | charHex2 | charHex3 | charHex4
  | charHex5 | charHex6 | charHex7 | charHex8 | charHex9
  /-- CHAR.HEX_A to CHAR.HEX_F, the upper-case letters (R64, R91). -/
  | charHexUpA | charHexUpB | charHexUpC | charHexUpD | charHexUpE | charHexUpF
  /-- CHAR.HEX_a to CHAR.HEX_f, the lower-case letters (R64, R91). -/
  | charHexLoA | charHexLoB | charHexLoC | charHexLoD | charHexLoE | charHexLoF
deriving DecidableEq, Repr

end Sys2Proof
end

