-- ==== Sys2Proof/Decode.lean ====
section
/-! DEFINITION. From code words to instructions and back (spec/30_encoding.md sections 1, 3 and 4,
spec/opcode_table.json). The decoder is total: what no row of the table matches is rejected by name. -/

namespace Sys2Proof

/-- Why a code word is no instruction of the table. -/
inductive Reject where
  /-- A 6-bit selector with no FEED row: its `cmd_op` is not 000, or its phase code is 7 (R74, R79). -/
  | noDispatchRow (sel : BitVec 6)
  /-- A character code with no CHAR row (R64, R74). -/
  | noCharRow (c : Char8)
  /-- A record that does not open with the start delimiter, or is cut before its type field ends
  (R61, R75). -/
  | noRecordHead
  /-- A record whose type field is neither "00" nor "01" (R76). -/
  | noRecordType (first second : Char8)
  /-- A record that is too short, or too long, for the layout its type selects (R61). -/
  | recordLength
deriving DecidableEq, Repr

/-- The decoder's answer. -/
inductive Decoded where
  | instr (i : Instr)
  | rejected (r : Reject)
deriving DecidableEq, Repr

/-- The instruction of an answer, if it is one. -/
def Decoded.toOption : Decoded → Option Instr
  | .instr i => some i
  | .rejected _ => none

/-- The command word's operation codes (R72), the two reserved ones as their own rows (R74, R79). -/
def decodeOp (cmdOp : BitVec 3) (chunk : List Char8) : Instr :=
  match cmdOp.toNat with
  | 0 => .feed chunk
  | 1 => .isReady
  | 2 => .getRecord
  | 3 => .getError
  | 4 => .getType
  | 5 => .reset
  | 6 => .reserved6
  | _ => .reserved7

/-- The FEED rows: phase code in bits 5:3, `cmd_op` = 000 in bits 2:0 (R74, R20). -/
def decodeFeed (sel : BitVec 6) (chunk : List Char8) : Decoded :=
  match sel.toNat with
  | 0x00 => .instr (.feedStart chunk)
  | 0x08 => .instr (.feedCount chunk)
  | 0x10 => .instr (.feedAddr chunk)
  | 0x18 => .instr (.feedType chunk)
  | 0x20 => .instr (.feedData chunk)
  | 0x28 => .instr (.feedCsum chunk)
  | 0x30 => .instr (.feedErr chunk)
  | _ => .rejected (.noDispatchRow sel)

/-- The CHAR rows: the start delimiter and the 22 hex digits (R64, R74). -/
def decodeChar (c : Char8) : Decoded :=
  match c.toNat with
  | 0x3A => .instr .charStart
  | 0x30 => .instr .charHex0
  | 0x31 => .instr .charHex1
  | 0x32 => .instr .charHex2
  | 0x33 => .instr .charHex3
  | 0x34 => .instr .charHex4
  | 0x35 => .instr .charHex5
  | 0x36 => .instr .charHex6
  | 0x37 => .instr .charHex7
  | 0x38 => .instr .charHex8
  | 0x39 => .instr .charHex9
  | 0x41 => .instr .charHexUpA
  | 0x42 => .instr .charHexUpB
  | 0x43 => .instr .charHexUpC
  | 0x44 => .instr .charHexUpD
  | 0x45 => .instr .charHexUpE
  | 0x46 => .instr .charHexUpF
  | 0x61 => .instr .charHexLoA
  | 0x62 => .instr .charHexLoB
  | 0x63 => .instr .charHexLoC
  | 0x64 => .instr .charHexLoD
  | 0x65 => .instr .charHexLoE
  | 0x66 => .instr .charHexLoF
  | _ => .rejected (.noCharRow c)

/-- A list's last two characters and what stands before them: the checksum field closes every
record (R60). -/
def splitChecksum : List Char8 → Option (List Char8 × CharPair)
  | [] => none
  | [_] => none
  | [a, b] => some ([], ⟨a, b⟩)
  | a :: b :: c :: rest =>
    match splitChecksum (b :: c :: rest) with
    | some (dd, cc) => some (a :: dd, cc)
    | none => none

/-- The REC rows: the two characters of the type field, positions 7 and 8 of the record, select the
layout (R61, R74, R76). -/
def decodeRecord : List Char8 → Decoded
  | d :: b0 :: b1 :: a0 :: a1 :: a2 :: a3 :: t0 :: t1 :: rest =>
    if d ≠ Machine.startDelimiter then .rejected .noRecordHead
    else if t0 = Machine.charZero ∧ t1 = Machine.charZero then
      match splitChecksum rest with
      | some (dd, cc) => .instr (.recData ⟨b0, b1⟩ ⟨a0, a1⟩ ⟨a2, a3⟩ dd cc)
      | none => .rejected .recordLength
    else if t0 = Machine.charZero ∧ t1 = Machine.charOne then
      match rest with
      | [c0, c1] => .instr (.recEof ⟨b0, b1⟩ ⟨a0, a1⟩ ⟨a2, a3⟩ ⟨c0, c1⟩)
      | _ => .rejected .recordLength
    else .rejected (.noRecordType t0 t1)
  | _ => .rejected .noRecordHead

/-- The decoder. -/
def decode : CodeWord → Decoded
  | .op cmdOp cmdLen cmdChars => .instr (decodeOp cmdOp (Machine.chunkOfLanes cmdLen.toNat cmdChars))
  | .feed sel cmdLen cmdChars => decodeFeed sel (Machine.chunkOfLanes cmdLen.toNat cmdChars)
  | .record chars => decodeRecord chars
  | .char c => decodeChar c

/-- The characters of a Data record: `: BB AAAA 00 DD... CC` (R60, R61). -/
def dataRecordChars (bb ah al : CharPair) (dd : List Char8) (cc : CharPair) : List Char8 :=
  [Machine.startDelimiter, bb.first, bb.second, ah.first, ah.second, al.first, al.second,
    Machine.charZero, Machine.charZero] ++ dd ++ [cc.first, cc.second]

/-- The characters of an End-of-File record: `: BB AAAA 01 CC` (R60, R61). -/
def eofRecordChars (bb ah al cc : CharPair) : List Char8 :=
  [Machine.startDelimiter, bb.first, bb.second, ah.first, ah.second, al.first, al.second,
    Machine.charZero, Machine.charOne, cc.first, cc.second]

/-- A command word with no chunk. -/
def bareOp (cmdOp : BitVec 3) : CodeWord := .op cmdOp 0#16 []

/-- A FEED row's word: its selector, the chunk's length and the lanes the port has (R73). -/
def feedWord (sel : BitVec 6) (chunk : List Char8) : CodeWord :=
  .feed sel (BitVec.ofNat 16 chunk.length) (chunk.take Config.chunkLanes)

/-- The encoder, from the same tables. -/
def encode : Instr → CodeWord
  | .feed chunk => .op 0b000#3 (BitVec.ofNat 16 chunk.length) (chunk.take Config.chunkLanes)
  | .isReady => bareOp 0b001#3
  | .getRecord => bareOp 0b010#3
  | .getError => bareOp 0b011#3
  | .getType => bareOp 0b100#3
  | .reset => bareOp 0b101#3
  | .reserved6 => bareOp 0b110#3
  | .reserved7 => bareOp 0b111#3
  | .feedStart chunk => feedWord 0b000000#6 chunk
  | .feedCount chunk => feedWord 0b001000#6 chunk
  | .feedAddr chunk => feedWord 0b010000#6 chunk
  | .feedType chunk => feedWord 0b011000#6 chunk
  | .feedData chunk => feedWord 0b100000#6 chunk
  | .feedCsum chunk => feedWord 0b101000#6 chunk
  | .feedErr chunk => feedWord 0b110000#6 chunk
  | .recData bb ah al dd cc => .record (dataRecordChars bb ah al dd cc)
  | .recEof bb ah al cc => .record (eofRecordChars bb ah al cc)
  | .charStart => .char 0x3A#8
  | .charHex0 => .char 0x30#8
  | .charHex1 => .char 0x31#8
  | .charHex2 => .char 0x32#8
  | .charHex3 => .char 0x33#8
  | .charHex4 => .char 0x34#8
  | .charHex5 => .char 0x35#8
  | .charHex6 => .char 0x36#8
  | .charHex7 => .char 0x37#8
  | .charHex8 => .char 0x38#8
  | .charHex9 => .char 0x39#8
  | .charHexUpA => .char 0x41#8
  | .charHexUpB => .char 0x42#8
  | .charHexUpC => .char 0x43#8
  | .charHexUpD => .char 0x44#8
  | .charHexUpE => .char 0x45#8
  | .charHexUpF => .char 0x46#8
  | .charHexLoA => .char 0x61#8
  | .charHexLoB => .char 0x62#8
  | .charHexLoC => .char 0x63#8
  | .charHexLoD => .char 0x64#8
  | .charHexLoE => .char 0x65#8
  | .charHexLoF => .char 0x66#8

/-- The chunk that reaches the parser when the host feeds `chunk` through the port: the chunk
itself where it fits the lanes, otherwise its length with nothing beyond the lanes (R73, D22). -/
def presentedChunk (chunk : List Char8) : List Char8 :=
  Machine.chunkOfLanes chunk.length (chunk.take Config.chunkLanes)

/-- The characters of a record of which only the two type characters are given: every operand
character is the code 0 (log entry 10). -/
def recordOfType (t0 t1 : Char8) : List Char8 :=
  [Machine.startDelimiter, 0#8, 0#8, 0#8, 0#8, 0#8, 0#8, t0, t1, 0#8, 0#8]

/-- The code word of a table word of eight bits, where three formats meet: an operation code, else a
character with a row, else a FEED selector, else a character (log entry 10). -/
def tableWord8 (w : Nat) : CodeWord :=
  if w < 8 then bareOp (BitVec.ofNat 3 w)
  else match decodeChar (BitVec.ofNat 8 w) with
    | .instr _ => .char (BitVec.ofNat 8 w)
    | .rejected _ =>
      if w < 64 then .feed (BitVec.ofNat 6 w) 0#16 [] else .char (BitVec.ofNat 8 w)

/-- The code word that a word of spec/opcode_table.json stands for, by its width: 3 bits OP, 6 bits
FEED, 8 bits CHAR, 16 bits REC; every operand is 0 (log entry 10). -/
def tableWord (nbits w : Nat) : Option CodeWord :=
  if 2 ^ nbits ≤ w then none
  else if nbits ≤ 3 then some (bareOp (BitVec.ofNat 3 w))
  else if nbits ≤ 6 then some (.feed (BitVec.ofNat 6 w) 0#16 [])
  else if nbits ≤ 8 then some (tableWord8 w)
  else if nbits ≤ 16 then
    if w < 256 then some (tableWord8 w)
    else some (.record (recordOfType (BitVec.ofNat 8 (w / 256)) (BitVec.ofNat 8 w)))
  else none

/-- The instruction that the decoder reads from a word of spec/opcode_table.json. -/
def decodeTableWord (nbits w : Nat) : Option Instr :=
  match tableWord nbits w with
  | some word => (decode word).toOption
  | none => none

/-- The format of a row of the opcode table (R74). -/
inductive RowFormat where
  | op | feed | record | char
deriving DecidableEq, Repr

/-- A row of the opcode table: its format and its `match` value (R74). -/
structure TableRow where
  format : RowFormat
  code : Nat
deriving DecidableEq, Repr

/-- The row that selects a code word, if its selecting bits are those of some row's format. -/
def CodeWord.row : CodeWord → Option TableRow
  | .op cmdOp _ _ => some ⟨.op, cmdOp.toNat⟩
  | .feed sel _ _ => some ⟨.feed, sel.toNat⟩
  | .record chars =>
    match chars[7]?, chars[8]? with
    | some t0, some t1 => some ⟨.record, t0.toNat * 256 + t1.toNat⟩
    | _, _ => none
  | .char c => some ⟨.char, c.toNat⟩

/-- The row of spec/opcode_table.json that each constructor stands for: `format` and `match`. -/
def Instr.row : Instr → TableRow
  | .feed _ => ⟨.op, 0x0⟩
  | .isReady => ⟨.op, 0x1⟩
  | .getRecord => ⟨.op, 0x2⟩
  | .getError => ⟨.op, 0x3⟩
  | .getType => ⟨.op, 0x4⟩
  | .reset => ⟨.op, 0x5⟩
  | .reserved6 => ⟨.op, 0x6⟩
  | .reserved7 => ⟨.op, 0x7⟩
  | .feedStart _ => ⟨.feed, 0x00⟩
  | .feedCount _ => ⟨.feed, 0x08⟩
  | .feedAddr _ => ⟨.feed, 0x10⟩
  | .feedType _ => ⟨.feed, 0x18⟩
  | .feedData _ => ⟨.feed, 0x20⟩
  | .feedCsum _ => ⟨.feed, 0x28⟩
  | .feedErr _ => ⟨.feed, 0x30⟩
  | .recData _ _ _ _ _ => ⟨.record, 0x3030⟩
  | .recEof _ _ _ _ => ⟨.record, 0x3031⟩
  | .charStart => ⟨.char, 0x3A⟩
  | .charHex0 => ⟨.char, 0x30⟩
  | .charHex1 => ⟨.char, 0x31⟩
  | .charHex2 => ⟨.char, 0x32⟩
  | .charHex3 => ⟨.char, 0x33⟩
  | .charHex4 => ⟨.char, 0x34⟩
  | .charHex5 => ⟨.char, 0x35⟩
  | .charHex6 => ⟨.char, 0x36⟩
  | .charHex7 => ⟨.char, 0x37⟩
  | .charHex8 => ⟨.char, 0x38⟩
  | .charHex9 => ⟨.char, 0x39⟩
  | .charHexUpA => ⟨.char, 0x41⟩
  | .charHexUpB => ⟨.char, 0x42⟩
  | .charHexUpC => ⟨.char, 0x43⟩
  | .charHexUpD => ⟨.char, 0x44⟩
  | .charHexUpE => ⟨.char, 0x45⟩
  | .charHexUpF => ⟨.char, 0x46⟩
  | .charHexLoA => ⟨.char, 0x61⟩
  | .charHexLoB => ⟨.char, 0x62⟩
  | .charHexLoC => ⟨.char, 0x63⟩
  | .charHexLoD => ⟨.char, 0x64⟩
  | .charHexLoE => ⟨.char, 0x65⟩
  | .charHexLoF => ⟨.char, 0x66⟩

end Sys2Proof
end

