-- ==== Sys2Proof/Machine/Records.lean ====
section
/-! DEFINITION. Whole records: FEEDREC, the caller protocol that feeds one record, one requested
chunk at a time (spec/30_encoding.md R83; log entry 8). -/

namespace Sys2Proof.Machine

/-- The loop of FEEDREC: feed as many characters as the parser requests, stop when GET_ERROR or
IS_READY is true. Past the record's end the chunk is what is left of it. -/
def feedUntilDone : Nat → List Char8 → State → Host.Outcome State Fault Refusal
  | 0, _, s => .next s
  | fuel + 1, rest, s =>
    match execFeed (rest.take (expect s)) s with
    | .next t => if err t || ready t then .next t else feedUntilDone fuel (rest.drop (expect s)) t
    | .fault f => .fault f
    | .refused r => .refused r

/-- FEEDREC of a record string. A record takes at most six FEEDs; the seventh covers a checksum
phase without a record type, which no run reaches. -/
def feedRecord (chars : List Char8) (s : State) : Host.Outcome State Fault Refusal :=
  feedUntilDone 7 chars s

/-- REC.DATA: the record of the Data layout is fed (R61, R83, R113). -/
def execRecData (bb ah al : CharPair) (dd : List Char8) (cc : CharPair) (s : State) :
    Host.Outcome State Fault Refusal :=
  feedRecord (dataRecordChars bb ah al dd cc) s

/-- REC.EOF: the record of the End-of-File layout is fed (R61, R83, R113). -/
def execRecEof (bb ah al cc : CharPair) (s : State) : Host.Outcome State Fault Refusal :=
  feedRecord (eofRecordChars bb ah al cc) s

end Sys2Proof.Machine
end

