-- ==== Sys2Proof/Machine/Dispatch.lean ====
section
/-! DEFINITION. One arm per constructor of Instr. -/

namespace Sys2Proof.Machine

def exec (i : Instr) (s : State) : Host.Outcome State Fault Refusal :=
  match i with
  | .feed chunk => Sys2Proof.Machine.execFeed chunk s
  | .isReady => Sys2Proof.Machine.execIsReady s
  | .getRecord => Sys2Proof.Machine.execGetRecord s
  | .getError => Sys2Proof.Machine.execGetError s
  | .getType => Sys2Proof.Machine.execGetType s
  | .reset => Sys2Proof.Machine.execReset s
  | .reserved6 => Sys2Proof.Machine.execReserved6 s
  | .reserved7 => Sys2Proof.Machine.execReserved7 s
  | .feedStart chunk => Sys2Proof.Machine.execFeedStart chunk s
  | .feedCount chunk => Sys2Proof.Machine.execFeedCount chunk s
  | .feedAddr chunk => Sys2Proof.Machine.execFeedAddr chunk s
  | .feedType chunk => Sys2Proof.Machine.execFeedType chunk s
  | .feedData chunk => Sys2Proof.Machine.execFeedData chunk s
  | .feedCsum chunk => Sys2Proof.Machine.execFeedCsum chunk s
  | .feedErr chunk => Sys2Proof.Machine.execFeedErr chunk s
  | .recData bb ah al dd cc => Sys2Proof.Machine.execRecData bb ah al dd cc s
  | .recEof bb ah al cc => Sys2Proof.Machine.execRecEof bb ah al cc s
  | .charStart => Sys2Proof.Machine.execCharStart s
  | .charHex0 => Sys2Proof.Machine.execCharHex0 s
  | .charHex1 => Sys2Proof.Machine.execCharHex1 s
  | .charHex2 => Sys2Proof.Machine.execCharHex2 s
  | .charHex3 => Sys2Proof.Machine.execCharHex3 s
  | .charHex4 => Sys2Proof.Machine.execCharHex4 s
  | .charHex5 => Sys2Proof.Machine.execCharHex5 s
  | .charHex6 => Sys2Proof.Machine.execCharHex6 s
  | .charHex7 => Sys2Proof.Machine.execCharHex7 s
  | .charHex8 => Sys2Proof.Machine.execCharHex8 s
  | .charHex9 => Sys2Proof.Machine.execCharHex9 s
  | .charHexUpA => Sys2Proof.Machine.execCharHexUpA s
  | .charHexUpB => Sys2Proof.Machine.execCharHexUpB s
  | .charHexUpC => Sys2Proof.Machine.execCharHexUpC s
  | .charHexUpD => Sys2Proof.Machine.execCharHexUpD s
  | .charHexUpE => Sys2Proof.Machine.execCharHexUpE s
  | .charHexUpF => Sys2Proof.Machine.execCharHexUpF s
  | .charHexLoA => Sys2Proof.Machine.execCharHexLoA s
  | .charHexLoB => Sys2Proof.Machine.execCharHexLoB s
  | .charHexLoC => Sys2Proof.Machine.execCharHexLoC s
  | .charHexLoD => Sys2Proof.Machine.execCharHexLoD s
  | .charHexLoE => Sys2Proof.Machine.execCharHexLoE s
  | .charHexLoF => Sys2Proof.Machine.execCharHexLoF s

end Sys2Proof.Machine
end

