-- ==== Sys2Proof/Machine/Fetch.lean ====
section
/-! DEFINITION. How the next command reaches the parser: the port cycles the host presents
(spec/30_encoding.md R73; log entries 5, 10 and 15). -/

namespace Sys2Proof.Machine

/-- The next port cycle, taken from the host's script, and the state without it. -/
def fetchCycle (s : State) : Option (PortCycle × State) :=
  match s.input with
  | [] => none
  | c :: rest => some (c, { s with input := rest })

/-- A cycle in which no command is applied: the state holds, no response is fixed (R73, R21). -/
def idleCycle (s : State) : State :=
  respond .none s

/-- What happens on a code word that no row of the table matches (log entry 15). An illegal record
is fed like any other, and the FEED that carries the illegal encoding fails (30_encoding.md
section 4). A character with no row is no hex digit, so the decoder has no value for it (R64, R90).
A selector that is no row has no meaning. -/
def execUndecoded (word : CodeWord) (s : State) : Host.Outcome State Fault Refusal :=
  match word with
  | .record chars => feedRecord chars s
  | .char c => .next (decodeCharacter c s)
  | .feed _ _ _ => .refused .noDispatchRow
  | .op _ _ _ => .refused .noDispatchRow

/-- The state in which a code word is what the host presents next. A FEED row's selector names the
phase that selects it, so the cursor is set to that phase (log entry 10). -/
def placeWord (word : CodeWord) (s : State) : State :=
  match word with
  | .feed sel cmdLen cmdChars =>
    { s with
      input := ⟨false, true, .feed sel cmdLen cmdChars⟩ :: s.input,
      phase := (phaseOfCode (sel.extractLsb' 3 3)).getD s.phase }
  | w => { s with input := ⟨false, true, w⟩ :: s.input }

end Sys2Proof.Machine
end

