-- ==== Sys2Proof/Machine/Step.lean ====
section
/-! DEFINITION. One step: the next port cycle, hardware reset before any command, no command in an
idle cycle, otherwise the decoded instruction (spec/30_encoding.md R73, spec/70 R160). -/

namespace Sys2Proof.Machine

def step (s : State) : Host.Outcome State Fault Refusal :=
  match fetchCycle s with
  | none => .next (idleCycle s)
  | some (c, t) =>
    if c.rst then .next (hardwareReset t)
    else if c.valid then
      match decode c.word with
      | .instr i => exec i t
      | .rejected _ => execUndecoded c.word t
    else .next (idleCycle t)

/-- The state in which the next step runs the instruction of a word of the opcode table
(log entry 10). -/
def State.withFetchWord (s : State) (nbits w : Nat) : State :=
  match tableWord nbits w with
  | some word => placeWord word s
  | none => s

end Sys2Proof.Machine
end

