-- ==== Sys2Proof/Machine/Ports.lean ====
section
/-! DEFINITION. The output side of the port (spec/30_encoding.md R73): the always-driven outputs,
functions of the state, and the `rsp_*` outputs of the last command, absent where the spec leaves
them unspecified. -/

namespace Sys2Proof.Machine

/-- `req_o` = `Expect(state)`. -/
def reqO (s : State) : BitVec 16 := BitVec.ofNat 16 (expect s)

/-- `ready_o` = `Ready(state)`. -/
def readyO (s : State) : BitVec 1 := BitVec.ofBool (ready s)

/-- `error_o` = `Err(state)`. -/
def errorO (s : State) : BitVec 1 := BitVec.ofBool (err s)

/-- `type_o` = the code of `recType`. -/
def typeO (s : State) : BitVec 2 := recTypeCode s.recType

/-- `rsp_req`: FEED only. -/
def rspReq (s : State) : Option (BitVec 16) :=
  match s.rsp with
  | .request n => some (BitVec.ofNat 16 n)
  | .none | .flag _ | .recType _ | .record _ | .digit _ => none

/-- `rsp_flag`: IS_READY and GET_ERROR only. -/
def rspFlag (s : State) : Option (BitVec 1) :=
  match s.rsp with
  | .flag b => some (BitVec.ofBool b)
  | .none | .request _ | .recType _ | .record _ | .digit _ => none

/-- `rsp_type`: GET_TYPE and GET_RECORD only. -/
def rspType (s : State) : Option (BitVec 2) :=
  match s.rsp with
  | .recType t => some (recTypeCode t)
  | .record r => some (recTypeCode r.recordType)
  | .none | .request _ | .flag _ | .digit _ => none

/-- `rsp_addr`: GET_RECORD only. -/
def rspAddr (s : State) : Option (BitVec 16) :=
  match s.rsp with
  | .record r => some r.address
  | .none | .request _ | .flag _ | .recType _ | .digit _ => none

/-- `rsp_len`: GET_RECORD only. -/
def rspLen (s : State) : Option (BitVec 8) :=
  match s.rsp with
  | .record r => some r.payloadLength
  | .none | .request _ | .flag _ | .recType _ | .digit _ => none

/-- `rsp_payload[i]`: GET_RECORD only, and only below the reported length. -/
def rspPayload (s : State) (i : Nat) : Option Byte :=
  match s.rsp with
  | .record r => r.payload[i]?
  | .none | .request _ | .flag _ | .recType _ | .digit _ => none

end Sys2Proof.Machine
end

