-- ==== Sys2Proof/Safety.lean ====
section
/-! DEFINITION. The invariant of the reachable states (spec/10_state.md R34) and what counts as a safe
step, in the terms the statements use. -/

namespace Sys2Proof.Machine

/-- The invariants R34 lists, and the buffer's canonical form. -/
structure ParserInv (s : State) : Prop where
  /-- The buffer's canonical form. -/
  bufWf : Memory.wf s.buf
  /-- `payLen <= 50`. -/
  payLenBound : s.payLen.toNat ≤ Config.maxPayload
  /-- If `phase = AwaitData` then `expCount <= 50`. -/
  countBound : s.phase = .awaitData → s.expCount.toNat ≤ Config.maxPayload
  /-- If `recType = Data` then `buf[0..payLen-1]` were all written. -/
  payloadWritten : s.recType = .data → ∀ k, k < s.payLen.toNat → ∃ b, Memory.read s.buf k = some b
  /-- In AwaitByteCount, AwaitAddress, AwaitRecordType and AwaitData the type is Invalid. -/
  midFlight : s.phase = .awaitByteCount ∨ s.phase = .awaitAddress ∨ s.phase = .awaitRecordType ∨
    s.phase = .awaitData → s.recType = .invalid
  /-- In AwaitChecksum the type is Data or EndOfFile. -/
  checksumTyped : s.phase = .awaitChecksum → s.recType ≠ .invalid
  /-- If `Ready(state)` then `acc[7:0] = 0`. -/
  readySum : ready s = true → s.acc.setWidth 8 = 0#8

/-- The parser's seven registers and buffer are the same in both states (R27's columns). -/
def SameParser (s t : State) : Prop :=
  t.phase = s.phase ∧ t.expCount = s.expCount ∧ t.addr = s.addr ∧ t.acc = s.acc ∧
    t.payLen = s.payLen ∧ t.recType = s.recType ∧ t.buf = s.buf

/-- All of the parser but `phase` is the same in both states: what a failing FEED keeps (R102). -/
def SameButPhase (s t : State) : Prop :=
  t.expCount = s.expCount ∧ t.addr = s.addr ∧ t.acc = s.acc ∧
    t.payLen = s.payLen ∧ t.recType = s.recType ∧ t.buf = s.buf

/-- The operation fails as every failing FEED does (R149): a next state in phase Error, nothing else
of the parser written, some request returned; the host's script is untouched. -/
def Fails (s : State) (o : Host.Outcome State Fault Refusal) : Prop :=
  ∃ t q, o = .next t ∧ t.phase = .error ∧ SameButPhase s t ∧ t.rsp = .request q ∧
    t.input = s.input ∧ t.powerOns = s.powerOns

/-- The operation fails on its length: as `Fails`, with a positive request (R102, R104). -/
def FailsOnLength (s : State) (o : Host.Outcome State Fault Refusal) : Prop :=
  ∃ t q, o = .next t ∧ t.phase = .error ∧ SameButPhase s t ∧ t.rsp = .request q ∧ 0 < q ∧
    t.input = s.input ∧ t.powerOns = s.powerOns

/-- The instruction feeds a whole record, several FEEDs one after the other (R83). -/
def isRecordRow (i : Instr) : Bool :=
  decide (i.row.format = .record)

/-- A step that does not stop with a fault. -/
def NoFault (o : Host.Outcome State Fault Refusal) : Prop :=
  ∀ f, o ≠ .fault f

end Sys2Proof.Machine
end

