-- ==== Sys2Proof/WellFormed.lean ====
section
/-! DEFINITION. Which instructions are well formed: the chunk fits the port's lanes (D22), and a
record is a legal encoding of its layout (spec/30_encoding.md R61, R77, R78). -/

namespace Sys2Proof

/-- The chunk fits the character lanes of the port, so that every character of it is presented
(R73, D22). A longer chunk is presented by its length alone. -/
def fitsLanes (chunk : List Char8) : Bool :=
  decide (chunk.length ≤ Config.chunkLanes)

/-- Both characters of the pair are hex digits (R62). -/
def CharPair.isHex (p : CharPair) : Bool :=
  Machine.isHexDigit p.first && Machine.isHexDigit p.second

/-- The payload field has the length that the byte count gives it, at most `MAX_PAYLOAD` bytes
(R61, R78). -/
def payloadMatches (bb : CharPair) (dd : List Char8) : Bool :=
  match Machine.decodeByte bb.first bb.second with
  | some n => decide (n.toNat ≤ Config.maxPayload) && decide (dd.length = 2 * n.toNat)
  | none => false

/-- A well-formed instruction: one that the port can present whole, or a legal record. -/
def Instr.wf : Instr → Bool
  | .feed chunk => fitsLanes chunk
  | .feedStart chunk => fitsLanes chunk
  | .feedCount chunk => fitsLanes chunk
  | .feedAddr chunk => fitsLanes chunk
  | .feedType chunk => fitsLanes chunk
  | .feedData chunk => fitsLanes chunk
  | .feedCsum chunk => fitsLanes chunk
  | .feedErr chunk => fitsLanes chunk
  | .recData bb ah al dd cc =>
    bb.isHex && ah.isHex && al.isHex && cc.isHex && dd.all Machine.isHexDigit && payloadMatches bb dd
  | .recEof bb ah al cc => bb.isHex && ah.isHex && al.isHex && cc.isHex
  | .isReady | .getRecord | .getError | .getType | .reset | .reserved6 | .reserved7 => true
  | .charStart => true
  | .charHex0 | .charHex1 | .charHex2 | .charHex3 | .charHex4 => true
  | .charHex5 | .charHex6 | .charHex7 | .charHex8 | .charHex9 => true
  | .charHexUpA | .charHexUpB | .charHexUpC | .charHexUpD | .charHexUpE | .charHexUpF => true
  | .charHexLoA | .charHexLoB | .charHexLoC | .charHexLoD | .charHexLoE | .charHexLoF => true

end Sys2Proof
end

