-- ==== Sys2Proof/Certificates/Slice0/Obligations.lean ====
section
/-! DEFINITION. The statements for the provers. Each docstring names the rule of spec/ that the
statement formalises; a clause that is the spec's own decision (D<n>) or the model's own choice
(a log entry) is said so. -/

open Sys2Proof Sys2Proof.Machine

/-! ## Encodings -/

/-- R60, R61, R72, R74: the decoder gives back every well-formed instruction that the encoder writes,
every operand at every value. That FEED, REC and CHAR rows have code words of their own beside the
command word is the model's (log entry 5). -/
def Obligations.DecodeEncodeRoundTrip : Prop :=
  ∀ i : Instr, i.wf = true → decode (encode i) = .instr i

/-- R73, D22: a chunk of any length that `cmd_len` can carry reaches the parser with its length, and
whole where it fits the 100 lanes. What stands beyond the lanes is the model's (log entry 11). -/
def Obligations.ChunkCrossesThePort : Prop :=
  ∀ chunk : List Char8, chunk.length < 2 ^ 16 →
    decode (encode (.feed chunk)) = .instr (.feed (presentedChunk chunk)) ∧
    (presentedChunk chunk).length = chunk.length ∧
    (chunk.length ≤ 100 → presentedChunk chunk = chunk) ∧
    (presentedChunk chunk).take 100 = chunk.take 100

/-- R72, R73: the eight operation codes of the command word, whatever the chunk lanes carry. The codes
are the spec's decision D17 (log entry 17); that FEED's chunk has `cmd_len` characters and reads the
code 0 where no lane is listed is the model's choice (log entry 11). -/
def Obligations.CommandCodesDecode : Prop :=
  ∀ (len : BitVec 16) (lanes : List Char8),
    decode (.op 0b000#3 len lanes) = .instr (.feed (chunkOfLanes len.toNat lanes)) ∧
    decode (.op 0b001#3 len lanes) = .instr .isReady ∧
    decode (.op 0b010#3 len lanes) = .instr .getRecord ∧
    decode (.op 0b011#3 len lanes) = .instr .getError ∧
    decode (.op 0b100#3 len lanes) = .instr .getType ∧
    decode (.op 0b101#3 len lanes) = .instr .reset ∧
    decode (.op 0b110#3 len lanes) = .instr .reserved6 ∧
    decode (.op 0b111#3 len lanes) = .instr .reserved7

/-- R64, R74: exactly the start delimiter and the hex digits have a CHAR row, and running a hex digit's
row gives the decoder's value of that very character. That a row is run, and answers that value, is the
model's choice (log entry 9). -/
def Obligations.CharacterRowsAreExact : Prop :=
  ∀ c : Char8,
    ((∃ i, decode (.char c) = .instr i) ↔ c = 0x3A#8 ∨ isHexDigit c = true) ∧
    (isHexDigit c = true → ∃ i, decode (.char c) = .instr i ∧
      ∀ s, exec i s = .next { s with rsp := .digit (decodeDigit c) })

/-- R74: a 6-bit selector has a FEED row exactly where its `cmd_op` is 000 and its phase code is one of
the seven of R20. That step refuses every other selector by name is the model's, deduced from the
absence of a row and said by no rule (log entry 7). -/
def Obligations.DispatchRowsAreExact : Prop :=
  ∀ (sel : BitVec 6) (len : BitVec 16) (lanes : List Char8),
    ((∃ i, decode (.feed sel len lanes) = .instr i) ↔
      sel.extractLsb' 0 3 = 0#3 ∧ sel.extractLsb' 3 3 ≠ 7#3) ∧
    ((¬ ∃ i, decode (.feed sel len lanes) = .instr i) → ∀ s rest,
      s.input = ⟨false, true, .feed sel len lanes⟩ :: rest → step s = .refused .noDispatchRow)

/-- R76: a string that is long enough to hold a type field other than "00" and "01" decodes to no
record. That step feeds it all the same, as FEEDREC in one step, is the model's (log entries 8 and 15;
30_encoding.md section 4). -/
def Obligations.UnknownRecordTypeIsNoRecord : Prop :=
  ∀ (head tail : List Char8) (t0 t1 : Char8), head.length = 7 →
    ¬ (t0 = 0x30#8 ∧ t1 = 0x30#8) → ¬ (t0 = 0x30#8 ∧ t1 = 0x31#8) →
    (∀ i, decode (.record (head ++ [t0, t1] ++ tail)) ≠ .instr i) ∧
    ∀ s rest, s.input = ⟨false, true, .record (head ++ [t0, t1] ++ tail)⟩ :: rest →
      step s = feedRecord (head ++ [t0, t1] ++ tail) { s with input := rest }

/-- The words of some instructions, written out from the tables of R61, R64, R72 and R74. -/
def Obligations.SampleWordsDecode : Prop :=
  decode (.op 0b000#3 2#16 [0x31#8, 0x30#8]) = .instr (.feed [0x31#8, 0x30#8]) ∧
  decode (.op 0b101#3 0#16 []) = .instr .reset ∧
  decode (.feed 0b011000#6 2#16 [0x30#8, 0x31#8]) = .instr (.feedType [0x30#8, 0x31#8]) ∧
  decode (.record [0x3A#8, 0x30#8, 0x30#8, 0x30#8, 0x30#8, 0x30#8, 0x30#8, 0x30#8, 0x31#8, 0x46#8, 0x46#8]) =
    .instr (.recEof ⟨0x30#8, 0x30#8⟩ ⟨0x30#8, 0x30#8⟩ ⟨0x30#8, 0x30#8⟩ ⟨0x46#8, 0x46#8⟩) ∧
  decode (.char 0x63#8) = .instr .charHexLoC

/-! ## The step -/

/-- R73: a step runs the decoded instruction of a cycle that applies a command, on the state without
that cycle. The host's list of cycles is the model's (log entry 5). -/
def Obligations.StepRunsTheDecodedInstruction : Prop :=
  ∀ (s : State) (word : CodeWord) (rest : List PortCycle) (i : Instr),
    s.input = ⟨false, true, word⟩ :: rest → decode word = .instr i →
    step s = exec i { s with input := rest }

/-- R160: at a cycle with `rst = 1` the state becomes the hardware reset column of R35, with the buffer
unspecified again, and a command of the same cycle is ignored. The model's are: the unspecified bytes
and their index (log entry 1), the list of cycles (log entry 5), the absent response (log entry 6). -/
def Obligations.HardwareResetWinsOverACommand : Prop :=
  ∀ (s : State) (valid : Bool) (word : CodeWord) (rest : List PortCycle),
    s.input = ⟨true, valid, word⟩ :: rest →
    ∃ t, step s = .next t ∧ t.phase = .awaitStart ∧ t.recType = .invalid ∧ t.acc = 0#16 ∧
      t.expCount = 0#8 ∧ t.addr = 0#16 ∧ t.payLen = 0#8 ∧ t.input = rest ∧ t.rsp = .none ∧
      ∀ k, bufByte t k = Config.powerOnByte (s.powerOns + 1) k

/-- R181, R21: any number of cycles without a command changes nothing of the parser, whatever stands on
the command lines. The list of cycles and the counters are the model's (log entries 1, 2 and 5). -/
def Obligations.IdleCyclesChangeNothing : Prop :=
  ∀ (words : List CodeWord) (s : State) (rest : List PortCycle),
    s.input = words.map (fun w => ⟨false, false, w⟩) ++ rest →
    ∃ t, Host.Core.run Sys2Proof.core words.length s = .next t ∧ SameParser s t ∧
      t.input = rest ∧ t.draws = s.draws ∧ t.powerOns = s.powerOns

/-! ## Reset values -/

/-- R35, R160, R162: the registers of the hardware reset column and the entry point. The zeros of
`acc`, `expCount`, `addr` and `payLen` are the spec's decisions D9 and D16 (log entry 3). -/
def Obligations.ResetStateValues : Prop :=
  State.reset.phase = .awaitStart ∧ State.reset.recType = .invalid ∧ State.reset.acc = 0#16 ∧
  State.reset.expCount = 0#8 ∧ State.reset.addr = 0#16 ∧ State.reset.payLen = 0#8 ∧
  expect State.reset = 1 ∧ ready State.reset = false ∧ err State.reset = false

/-! ## The hex-digit decoder -/

/-- R90: the three ranges, by character code; exactly 22 of the 256 codes are hex digits. -/
def Obligations.HexDigitsAreTheThreeRanges : Prop :=
  (∀ c : Char8, isHexDigit c = true ↔
    (0x30 ≤ c.toNat ∧ c.toNat ≤ 0x39) ∨ (0x41 ≤ c.toNat ∧ c.toNat ≤ 0x46) ∨
    (0x61 ≤ c.toNat ∧ c.toNat ≤ 0x66)) ∧
  ((List.range 256).filter (fun n => isHexDigit (BitVec.ofNat 8 n))).length = 22

/-- R91: the value of each hex digit, the same for both cases of a letter. -/
def Obligations.DigitValues : Prop :=
  ∀ c : Char8,
    (0x30 ≤ c.toNat ∧ c.toNat ≤ 0x39 →
      ∃ v, decodeDigit c = some v ∧ v.toNat = c.toNat - 0x30) ∧
    (0x41 ≤ c.toNat ∧ c.toNat ≤ 0x46 →
      ∃ v, decodeDigit c = some v ∧ v.toNat = c.toNat - 0x41 + 10) ∧
    (0x61 ≤ c.toNat ∧ c.toNat ≤ 0x66 →
      ∃ v, decodeDigit c = some v ∧ v.toNat = c.toNat - 0x61 + 10)

/-- R92: the decoder has a value on the hex digits and on nothing else; that it has none elsewhere is
the form R92 lets a model choose (log entry 15). -/
def Obligations.OnlyHexDigitsHaveAValue : Prop :=
  (∀ c : Char8, (∃ v, decodeDigit c = some v) ↔ isHexDigit c = true) ∧
  ∀ high low : Char8,
    (∃ b, decodeByte high low = some b) ↔ isHexDigit high = true ∧ isHexDigit low = true

/-- R93, R44: a byte is sixteen times its first digit plus its second. -/
def Obligations.ByteIsHighNibbleFirst : Prop :=
  ∀ (high low : Char8) (a b : BitVec 4), decodeDigit high = some a → decodeDigit low = some b →
    ∃ v, decodeByte high low = some v ∧ v.toNat = 16 * a.toNat + b.toNat

/-- R46: the bytes of a hex field are its pairs in wire order. -/
def Obligations.FieldBytesAreItsPairsInOrder : Prop :=
  ∀ (chunk : List Char8) (bytes : List Byte), decodeBytes chunk = some bytes →
    chunk.length = 2 * bytes.length ∧
    ∀ k, k < bytes.length → ∃ h l b, chunk[2 * k]? = some h ∧ chunk[2 * k + 1]? = some l ∧
      bytes[k]? = some b ∧ decodeByte h l = some b

/-- R91: the 22 hex CHAR rows complete in every state with the value of their character; no register
is written (R94; what such a row is as an instruction is the model's, log entry 9). -/
def Obligations.HexCharacterRowsGiveTheirValue : Prop :=
  ∀ s : State,
    exec .charHex0 s = .next { s with rsp := .digit (some 0#4) } ∧
    exec .charHex1 s = .next { s with rsp := .digit (some 1#4) } ∧
    exec .charHex2 s = .next { s with rsp := .digit (some 2#4) } ∧
    exec .charHex3 s = .next { s with rsp := .digit (some 3#4) } ∧
    exec .charHex4 s = .next { s with rsp := .digit (some 4#4) } ∧
    exec .charHex5 s = .next { s with rsp := .digit (some 5#4) } ∧
    exec .charHex6 s = .next { s with rsp := .digit (some 6#4) } ∧
    exec .charHex7 s = .next { s with rsp := .digit (some 7#4) } ∧
    exec .charHex8 s = .next { s with rsp := .digit (some 8#4) } ∧
    exec .charHex9 s = .next { s with rsp := .digit (some 9#4) } ∧
    exec .charHexUpA s = .next { s with rsp := .digit (some 10#4) } ∧
    exec .charHexUpB s = .next { s with rsp := .digit (some 11#4) } ∧
    exec .charHexUpC s = .next { s with rsp := .digit (some 12#4) } ∧
    exec .charHexUpD s = .next { s with rsp := .digit (some 13#4) } ∧
    exec .charHexUpE s = .next { s with rsp := .digit (some 14#4) } ∧
    exec .charHexUpF s = .next { s with rsp := .digit (some 15#4) } ∧
    exec .charHexLoA s = .next { s with rsp := .digit (some 10#4) } ∧
    exec .charHexLoB s = .next { s with rsp := .digit (some 11#4) } ∧
    exec .charHexLoC s = .next { s with rsp := .digit (some 12#4) } ∧
    exec .charHexLoD s = .next { s with rsp := .digit (some 13#4) } ∧
    exec .charHexLoE s = .next { s with rsp := .digit (some 14#4) } ∧
    exec .charHexLoF s = .next { s with rsp := .digit (some 15#4) }

/-! ## FEED, phase by phase -/

/-- R110: FEED and FEED.START in phase AwaitStart. `acc <- 0` is the spec's decision D9. -/
def Obligations.FeedInAwaitStart : Prop :=
  ∀ (s : State) (chunk : List Char8) (i : Instr), s.phase = .awaitStart →
    i = .feed chunk ∨ i = .feedStart chunk →
    (chunk = [0x3A#8] → exec i s = .next { s with
      recType := .invalid, acc := 0#16, phase := .awaitByteCount, rsp := .request 2 }) ∧
    (∀ c, chunk = [c] → c ≠ 0x3A#8 → Fails s (exec i s)) ∧
    (chunk.length ≠ 1 → FailsOnLength s (exec i s))

/-- R111: FEED and FEED.COUNT in phase AwaitByteCount. -/
def Obligations.FeedInAwaitByteCount : Prop :=
  ∀ (s : State) (chunk : List Char8) (i : Instr), s.phase = .awaitByteCount →
    i = .feed chunk ∨ i = .feedCount chunk →
    (∀ c0 c1 b, chunk = [c0, c1] → decodeByte c0 c1 = some b → exec i s = .next { s with
      expCount := b, acc := s.acc + b.setWidth 16, phase := .awaitAddress, rsp := .request 4 }) ∧
    (chunk.length = 2 → chunk.all isHexDigit = false → Fails s (exec i s)) ∧
    (chunk.length ≠ 2 → FailsOnLength s (exec i s))

/-- R112, R45: FEED and FEED.ADDR in phase AwaitAddress: the address is big-endian. -/
def Obligations.FeedInAwaitAddress : Prop :=
  ∀ (s : State) (chunk : List Char8) (i : Instr), s.phase = .awaitAddress →
    i = .feed chunk ∨ i = .feedAddr chunk →
    (∀ c0 c1 c2 c3 hi lo, chunk = [c0, c1, c2, c3] →
      decodeByte c0 c1 = some hi → decodeByte c2 c3 = some lo →
      ∃ a : BitVec 16, a.toNat = 256 * hi.toNat + lo.toNat ∧
        exec i s = .next { s with
          addr := a, acc := s.acc + hi.setWidth 16 + lo.setWidth 16, phase := .awaitRecordType,
          rsp := .request 2 }) ∧
    (chunk.length = 4 → chunk.all isHexDigit = false → Fails s (exec i s)) ∧
    (chunk.length ≠ 4 → FailsOnLength s (exec i s))

/-- R113: FEED and FEED.TYPE in phase AwaitRecordType. Where the byte count is bounded is the spec's
decision D8. -/
def Obligations.FeedInAwaitRecordType : Prop :=
  ∀ (s : State) (chunk : List Char8) (i : Instr), s.phase = .awaitRecordType →
    i = .feed chunk ∨ i = .feedType chunk →
    (chunk = [0x30#8, 0x30#8] → s.expCount.toNat ≤ 50 → exec i s = .next { s with
      phase := .awaitData, rsp := .request (2 * s.expCount.toNat) }) ∧
    (chunk = [0x30#8, 0x30#8] → 50 < s.expCount.toNat → Fails s (exec i s)) ∧
    (chunk = [0x30#8, 0x31#8] → exec i s = .next { s with
      acc := s.acc + 1#16, recType := .endOfFile, phase := .awaitChecksum, rsp := .request 2 }) ∧
    (chunk.length = 2 → chunk ≠ [0x30#8, 0x30#8] → chunk ≠ [0x30#8, 0x31#8] → Fails s (exec i s)) ∧
    (chunk.length ≠ 2 → FailsOnLength s (exec i s))

/-- R114: FEED and FEED.DATA in phase AwaitData with a byte count of at most 50 (ParserInv holds no other,
R34): the bytes stored are `buf[0..expCount-1]`, every other byte of the buffer reads as before. -/
def Obligations.FeedInAwaitData : Prop :=
  ∀ (s : State) (chunk : List Char8) (i : Instr), s.phase = .awaitData → s.expCount.toNat ≤ 50 →
    i = .feed chunk ∨ i = .feedData chunk →
    (∀ bytes, chunk.length = 2 * s.expCount.toNat → decodeBytes chunk = some bytes →
      ∃ t, exec i s = .next t ∧ t.phase = .awaitChecksum ∧ t.recType = .data ∧
        t.payLen = s.expCount ∧ t.acc = s.acc + BitVec.ofNat 16 (bytes.map BitVec.toNat).sum ∧
        bytes.length = s.expCount.toNat ∧
        (∀ k, k < s.expCount.toNat → some (bufByte t k) = bytes[k]?) ∧
        (∀ k, s.expCount.toNat ≤ k → bufByte t k = bufByte s k) ∧
        t.expCount = s.expCount ∧ t.addr = s.addr ∧ t.rsp = .request 2 ∧
        t.input = s.input ∧ t.draws = s.draws ∧ t.powerOns = s.powerOns) ∧
    (chunk.length = 2 * s.expCount.toNat → chunk.all isHexDigit = false → Fails s (exec i s)) ∧
    (chunk.length ≠ 2 * s.expCount.toNat → FailsOnLength s (exec i s))

/-- R115: FEED and FEED.CSUM in phase AwaitChecksum: the low 8 bits of the sum decide. -/
def Obligations.FeedInAwaitChecksum : Prop :=
  ∀ (s : State) (chunk : List Char8) (i : Instr), s.phase = .awaitChecksum →
    i = .feed chunk ∨ i = .feedCsum chunk →
    (∀ c0 c1 c, chunk = [c0, c1] → decodeByte c0 c1 = some c →
      ((s.acc.toNat + c.toNat) % 256 = 0 → ∃ t, exec i s = .next t ∧
        t = { s with acc := s.acc + c.setWidth 16, phase := .awaitStart, rsp := .request 1 } ∧
        (s.recType ≠ .invalid → ready t = true)) ∧
      ((s.acc.toNat + c.toNat) % 256 ≠ 0 → Fails s (exec i s))) ∧
    (chunk.length = 2 → chunk.all isHexDigit = false → Fails s (exec i s)) ∧
    (chunk.length ≠ 2 → FailsOnLength s (exec i s))

/-- R116: FEED and FEED.ERR in phase Error write nothing and return 0, whatever the chunk. -/
def Obligations.FeedInErrorIsInert : Prop :=
  ∀ (s : State) (chunk : List Char8) (i : Instr), s.phase = .error →
    i = .feed chunk ∨ i = .feedErr chunk → exec i s = .next { s with rsp := .request 0 }

/-- R102: in every phase but Error a chunk of another length than `Expect(state)` fails before its
characters are looked at (with a positive request, R104); and every FEED that fails, for this or any
other cause, writes `phase` and nothing else. -/
def Obligations.WrongLengthFails : Prop :=
  ∀ (s : State) (chunk : List Char8), s.phase ≠ .error →
    (chunk.length ≠ expect s → FailsOnLength s (exec (.feed chunk) s)) ∧
    (∀ t, exec (.feed chunk) s = .next t → t.phase = .error → SameButPhase s t)

/-- R105: in the four hex phases a chunk of the right length with a character that is no hex digit
fails, nothing but `phase` written (the spec's decision D7). -/
def Obligations.NonHexCharacterFails : Prop :=
  ∀ (s : State) (chunk : List Char8),
    s.phase = .awaitByteCount ∨ s.phase = .awaitAddress ∨ s.phase = .awaitData ∨
      s.phase = .awaitChecksum →
    chunk.length = expect s → (∃ c ∈ chunk, isHexDigit c = false) →
    Fails s (exec (.feed chunk) s)

/-- R101: a FEED that does not end in Error returns `Expect` of the state it leaves; the port shows
the same number on `rsp_req` and on `req_o` (R73). -/
def Obligations.SuccessfulFeedReturnsNextRequest : Prop :=
  ∀ (s t : State) (chunk : List Char8), exec (.feed chunk) s = .next t → t.phase ≠ .error →
    t.rsp = .request (expect t) ∧ rspReq t = some (reqO t)

/-- R149: whatever FEED enters phase Error has written nothing but `phase` and has returned some
request; from then on the error flag is up, the ready flag is down and `Expect(state)` is 0. -/
def Obligations.FailingFeedWritesPhaseOnly : Prop :=
  ∀ (s t : State) (chunk : List Char8), s.phase ≠ .error → exec (.feed chunk) s = .next t →
    t.phase = .error →
    SameButPhase s t ∧ (∃ q, t.rsp = .request q) ∧ t.input = s.input ∧ t.powerOns = s.powerOns ∧
    exec .getError t = .next { t with rsp := .flag true } ∧
    exec .isReady t = .next { t with rsp := .flag false } ∧ expect t = 0

/-- R71, R100: a FEED dispatch row is FEED in the phase that selects it. That it is refused by name in
every other phase is the model's, deduced from R71 and said by no rule (log entry 7). -/
def Obligations.DispatchRowsAreFeedInTheirPhase : Prop :=
  ∀ (s : State) (chunk : List Char8) (i : Instr) (p : Phase),
    (i, p) ∈ [(.feedStart chunk, .awaitStart), (.feedCount chunk, .awaitByteCount),
      (.feedAddr chunk, .awaitAddress), (.feedType chunk, .awaitRecordType),
      (.feedData chunk, .awaitData), (.feedCsum chunk, .awaitChecksum), (.feedErr chunk, .error)] →
    (s.phase = p → exec i s = exec (.feed chunk) s) ∧
    (s.phase ≠ p → exec i s = .refused (.notDispatched p))

/-- R110, R102, R116, R175, of FEED with the chunk ":": it opens a record in AwaitStart, is a length
error in the middle of a record, and does nothing in Error. That the CHAR.START row is this FEED is the
model's choice (log entry 9). -/
def Obligations.StartDelimiterRow : Prop :=
  ∀ s : State,
    (s.phase = .awaitStart → exec .charStart s = .next { s with
      recType := .invalid, acc := 0#16, phase := .awaitByteCount, rsp := .request 2 }) ∧
    (s.phase = .error → exec .charStart s = .next { s with rsp := .request 0 }) ∧
    (s.phase ≠ .awaitStart → s.phase ≠ .error → FailsOnLength s (exec .charStart s))

/-- R168: a Data record with byte count 0 requests 0 characters without an error, and the empty
chunk then completes its data phase and writes no byte. -/
def Obligations.EmptyDataFieldIsFedAsEmptyChunk : Prop :=
  ∀ s : State, s.phase = .awaitRecordType → s.expCount = 0#8 →
    ∃ t u, exec (.feed [0x30#8, 0x30#8]) s = .next t ∧ t.rsp = .request 0 ∧ err t = false ∧
      exec (.feed []) t = .next u ∧ u.rsp = .request 2 ∧ u.phase = .awaitChecksum ∧
      u.recType = .data ∧ u.payLen = 0#8 ∧ u.buf = s.buf ∧ u.acc = s.acc ∧ u.addr = s.addr

/-! ## Queries, RESET and the reserved codes -/

/-- R120: IS_READY. -/
def Obligations.IsReadyResult : Prop :=
  ∀ s : State, ∃ b, exec .isReady s = .next { s with rsp := .flag b } ∧
    (b = true ↔ s.phase = .awaitStart ∧ s.recType ≠ .invalid)

/-- R121: GET_ERROR. -/
def Obligations.GetErrorResult : Prop :=
  ∀ s : State, ∃ b, exec .getError s = .next { s with rsp := .flag b } ∧
    (b = true ↔ s.phase = .error)

/-- R123: GET_TYPE returns `recType` and writes nothing of the parser. -/
def Obligations.GetTypeResult : Prop :=
  ∀ s : State, exec .getType s = .next { s with rsp := .recType s.recType }

/-- R122: GET_RECORD. The payload length is at most 50 in every state that ParserInv holds of (R34); a
byte of the buffer that nothing has written is the model's free value (log entry 1). -/
def Obligations.GetRecordResult : Prop :=
  ∀ s : State, s.payLen.toNat ≤ 50 →
    ∃ r : Record, exec .getRecord s = .next { s with rsp := .record r } ∧
      r.recordType = s.recType ∧ r.address = s.addr ∧
      (s.recType = .data → r.payloadLength = s.payLen) ∧
      (s.recType ≠ .data → r.payloadLength = 0#8) ∧
      r.payload.length = r.payloadLength.toNat ∧
      ∀ k, k < r.payloadLength.toNat → r.payload[k]? = some (bufByte s k)

/-- R73, R171: after GET_RECORD the port drives `rsp_payload[i]` with `buf[i]` below the reported
length and leaves it unspecified from there on. That an unspecified lane has no value is the model's
(log entry 6). -/
def Obligations.PayloadLanesStopAtTheLength : Prop :=
  ∀ s t : State, exec .getRecord s = .next t →
    ∃ n : BitVec 8, rspLen t = some n ∧ n.toNat ≤ 50 ∧
      (∀ k, k < n.toNat → rspPayload t k = some (bufByte s k)) ∧
      (∀ k, n.toNat ≤ k → rspPayload t k = none)

/-- R49: the four queries change no state of the parser, and repeating one gives the same result. -/
def Obligations.QueriesChangeNothing : Prop :=
  ∀ (s t : State) (i : Instr),
    i = .isReady ∨ i = .getError ∨ i = .getRecord ∨ i = .getType → exec i s = .next t →
    SameParser s t ∧ t.input = s.input ∧ t.draws = s.draws ∧ t.powerOns = s.powerOns ∧
    exec i t = .next t

/-- R130: RESET (what it leaves in `expCount`, `addr`, `payLen`, `buf` and `acc` is the spec's
decision, D15 and D9). -/
def Obligations.ResetResult : Prop :=
  ∀ s : State, ∃ t, exec .reset s = .next t ∧
    t = { s with phase := .awaitStart, recType := .invalid, acc := 0#16, rsp := .none } ∧
    err t = false ∧ ready t = false ∧ expect t = 1

/-- R130, R49: two RESETs equal one, and after RESET the start delimiter is accepted. -/
def Obligations.ResetIsIdempotentAndReopens : Prop :=
  ∀ s t : State, exec .reset s = .next t → exec .reset t = .next t ∧
    ∃ u, exec (.feed [0x3A#8]) t = .next u ∧ u.rsp = .request 2 ∧ u.phase = .awaitByteCount

/-- R79: the hardware ignores a reserved operation code: the instruction completes and no state of the
parser changes. The model's are: that it runs this where R79 lets a model refuse (log entry 4), and
that it leaves no response (log entry 6). -/
def Obligations.ReservedCodesAreIgnored : Prop :=
  ∀ (s : State) (i : Instr), i = .reserved6 ∨ i = .reserved7 →
    exec i s = .next { s with rsp := .none }

/-! ## Whole-machine rules -/

/-- R21: the transition relation of the cursor, for every instruction but a whole record: the edges of
the table, to Error from every other phase, Error to itself, and AwaitStart on RESET. The reserved
codes and the CHAR rows obey it as the model runs them (log entries 4 and 9). -/
def Obligations.CursorFollowsTheTransitionRelation : Prop :=
  ∀ (i : Instr) (s t : State), isRecordRow i = false → exec i s = .next t → t.phase ≠ s.phase →
    (i = .reset ∧ t.phase = .awaitStart) ∨
    (s.phase ≠ .error ∧ t.phase = .error) ∨
    (s.phase, t.phase) ∈ [(.awaitStart, .awaitByteCount), (.awaitByteCount, .awaitAddress),
      (.awaitAddress, .awaitRecordType), (.awaitRecordType, .awaitData),
      (.awaitRecordType, .awaitChecksum), (.awaitData, .awaitChecksum),
      (.awaitChecksum, .awaitStart)]

/-- R27: which operation writes which register, for every instruction but a whole record: each register
changes only in the phases, or on the RESET, that the table marks. The reserved codes and the CHAR rows
obey it as the model runs them (log entries 4 and 9). -/
def Obligations.RegistersChangeOnlyWhereTheTableSays : Prop :=
  ∀ (i : Instr) (s t : State), isRecordRow i = false → exec i s = .next t →
    (t.expCount ≠ s.expCount → s.phase = .awaitByteCount) ∧
    (t.addr ≠ s.addr → s.phase = .awaitAddress) ∧
    (t.payLen ≠ s.payLen → s.phase = .awaitData) ∧
    (t.buf ≠ s.buf → s.phase = .awaitData) ∧
    (t.recType ≠ s.recType → i = .reset ∨ s.phase = .awaitStart ∨ s.phase = .awaitRecordType ∨
      s.phase = .awaitData) ∧
    (t.acc ≠ s.acc → i = .reset ∨ s.phase ≠ .error) ∧
    t.input = s.input ∧ t.powerOns = s.powerOns

/-- R30: the ready flag is set only by a successful FEED in phase AwaitChecksum, and every such FEED of
a state that has a record type sets it. Whole records are left out; the reserved codes and the CHAR
rows obey it as the model runs them (log entries 4 and 9). -/
def Obligations.ReadyIsSetOnlyByTheChecksum : Prop :=
  ∀ (i : Instr) (s t : State), isRecordRow i = false → exec i s = .next t →
    (ready s = false → ready t = true →
      s.phase = .awaitChecksum ∧ ∃ chunk, i = .feed chunk ∨ i = .feedCsum chunk) ∧
    (s.phase = .awaitChecksum → t.phase = .awaitStart → i ≠ .reset → s.recType ≠ .invalid →
      ready t = true)

/-- R151, R152: the Error phase is left only by RESET or hardware reset; every other step in it keeps
the whole parser. Of whole records, reserved codes, CHAR rows and words with no row this holds as the
model runs them (log entries 4, 8, 9 and 15). -/
def Obligations.ErrorPhaseIsTerminal : Prop :=
  ∀ s t : State, s.phase = .error → step s = .next t →
    SameParser s t ∨
    ∃ c rest, s.input = c :: rest ∧ (c.rst = true ∨ (c.valid = true ∧ decode c.word = .instr .reset))

/-- R31: the ready flag and the error flag are never both true, and the port's status outputs are
those flags, the request and the type code (R32, R73). -/
def Obligations.StatusOutputs : Prop :=
  ∀ s : State, ¬ (ready s = true ∧ err s = true) ∧
    (readyO s = 1#1 ↔ s.phase = .awaitStart ∧ s.recType ≠ .invalid) ∧
    (errorO s = 1#1 ↔ s.phase = .error) ∧
    (reqO s).toNat = expect s ∧
    (typeO s).toNat = (match s.recType with | .invalid => 0 | .data => 1 | .endOfFile => 2)

/-- The invariant of R34, which is the spec's own inference, holds after hardware reset. The buffer's
canonical form in it is the model's (log entry 1). -/
def Obligations.InvariantHoldsAtReset : Prop := ParserInv State.reset

/-- The invariant of R34, which is the spec's own inference, is kept by every step. The buffer's
canonical form in it is the model's (log entry 1), and so is what a step does on reserved codes, whole
records, CHAR rows and words with no row (log entries 4, 8, 9 and 15). -/
def Obligations.StepKeepsTheInvariant : Prop :=
  ∀ s t : State, ParserInv s → step s = .next t → ParserInv t

/-- R40: no index outside 0 to 49 is ever generated: where the invariant holds, no step faults. The
model's only fault is such an index (log entry 12). -/
def Obligations.NoStepFaults : Prop :=
  ∀ s : State, ParserInv s → NoFault (step s)

/-- R153: every operation of the host port is available in every phase: where the invariant holds it
completes. That the reserved codes (log entry 4), the whole records of the REC rows (log entry 8) and
the CHAR rows (log entry 9) complete as well is the model's choice, not R153's words. -/
def Obligations.EveryOperationCompletes : Prop :=
  ∀ (i : Instr) (s : State), ParserInv s → i.row.format ≠ .feed → ∃ t, exec i s = .next t

/-- R24, the spec's own inference: no observable behaviour depends on the accumulator's width: its bits
above the low 8 never decide anything but themselves. Of reserved codes, whole records and CHAR rows
this holds as the model runs them (log entries 4, 8 and 9). -/
def Obligations.OnlyTheLowAccumulatorBitsMatter : Prop :=
  ∀ (i : Instr) (s t : State) (a : BitVec 16), a.setWidth 8 = s.acc.setWidth 8 →
    exec i s = .next t →
    ∃ b : BitVec 16, b.setWidth 8 = t.acc.setWidth 8 ∧
      exec i { s with acc := a } = .next { t with acc := b }

/-- R163, U7: the bytes of the buffer that nothing has written are never observed: from a state of the
invariant an instruction does the same whatever those bytes are. The bytes and their index are the
model's (log entry 1), and so is how reserved codes, whole records and CHAR rows run (log entries 4, 8
and 9). -/
def Obligations.UnwrittenBytesAreNeverObserved : Prop :=
  ∀ (i : Instr) (s t : State) (p : Nat), ParserInv s → exec i s = .next t →
    exec i { s with powerOns := p } = .next { t with powerOns := p }

/-! ## Whole records -/

/-- R103 (in its consequence, the spec's own inference), R66: a Data record of legal fields, fed whole
from AwaitStart, is accepted exactly where its bytes sum to 0 modulo 256, and then stands in the
registers and the buffer; otherwise the parser is in Error. Bytes of the buffer from the record's count
on read as before. That a REC row runs the FEEDREC of R83 in one step is the model's choice (log entry
8). -/
def Obligations.DataRecordIsAcceptedExactlyOnZeroSum : Prop :=
  ∀ (s : State) (bb ah al cc : CharPair) (dd : List Char8) (n hi lo c : Byte) (ds : List Byte),
    s.phase = .awaitStart →
    decodeByte bb.first bb.second = some n → n.toNat ≤ 50 →
    decodeByte ah.first ah.second = some hi → decodeByte al.first al.second = some lo →
    decodeBytes dd = some ds → ds.length = n.toNat →
    decodeByte cc.first cc.second = some c →
    ∃ t, exec (.recData bb ah al dd cc) s = .next t ∧
      t.expCount = n ∧ t.addr.toNat = 256 * hi.toNat + lo.toNat ∧ t.recType = .data ∧
      t.payLen = n ∧ t.input = s.input ∧ t.powerOns = s.powerOns ∧
      (∀ k, k < n.toNat → some (bufByte t k) = ds[k]?) ∧
      (∀ k, n.toNat ≤ k → bufByte t k = bufByte s k) ∧
      (if (n.toNat + hi.toNat + lo.toNat + (ds.map BitVec.toNat).sum + c.toNat) % 256 = 0 then
        t.phase = .awaitStart ∧ ready t = true ∧ t.rsp = .request 1 ∧ t.draws = s.draws
      else t.phase = .error)

/-- R103 (in its consequence, the spec's own inference), R61: an End-of-File record, fed whole from
AwaitStart, is accepted exactly where its bytes with TT counted as 1 sum to 0 modulo 256, whatever its
byte count; the buffer and the payload length are untouched. That a REC row runs the FEEDREC of R83 in
one step is the model's choice (log entry 8). -/
def Obligations.EofRecordIsAcceptedExactlyOnZeroSum : Prop :=
  ∀ (s : State) (bb ah al cc : CharPair) (n hi lo c : Byte),
    s.phase = .awaitStart →
    decodeByte bb.first bb.second = some n →
    decodeByte ah.first ah.second = some hi → decodeByte al.first al.second = some lo →
    decodeByte cc.first cc.second = some c →
    ∃ t, exec (.recEof bb ah al cc) s = .next t ∧
      t.expCount = n ∧ t.addr.toNat = 256 * hi.toNat + lo.toNat ∧ t.recType = .endOfFile ∧
      t.payLen = s.payLen ∧ t.buf = s.buf ∧ t.input = s.input ∧ t.powerOns = s.powerOns ∧
      (if (n.toNat + hi.toNat + lo.toNat + 1 + c.toNat) % 256 = 0 then
        t.phase = .awaitStart ∧ ready t = true ∧ t.rsp = .request 1 ∧ t.draws = s.draws
      else t.phase = .error)

/-- R103, R122: a Data record that is accepted from AwaitStart is what GET_RECORD then returns, byte
for byte. That a REC row runs the FEEDREC of R83 in one step is the model's choice (log entry 8). -/
def Obligations.AcceptedDataRecordIsReadBack : Prop :=
  ∀ (s t : State) (bb ah al cc : CharPair) (dd : List Char8) (n hi lo : Byte) (ds : List Byte),
    s.phase = .awaitStart →
    decodeByte bb.first bb.second = some n →
    decodeByte ah.first ah.second = some hi → decodeByte al.first al.second = some lo →
    decodeBytes dd = some ds → ds.length = n.toNat →
    exec (.recData bb ah al dd cc) s = .next t → ready t = true →
    ∃ a : BitVec 16, a.toNat = 256 * hi.toNat + lo.toNat ∧
      exec .getRecord t = .next { t with rsp := .record ⟨.data, a, n, ds⟩ }

/-- Feeding a whole record ends with IS_READY or GET_ERROR true, from every state: the two exits of the
FEEDREC loop of R83. That a REC row runs that loop in one step, the loop's bound of seven FEEDs and
what it feeds past the record's end are the model's choice (log entry 8). -/
def Obligations.RecordFeedingEndsReadyOrInError : Prop :=
  ∀ (i : Instr) (s t : State), isRecordRow i = true → exec i s = .next t →
    ready t = true ∨ err t = true

/-- A record fed in the middle of another one, or in Error, is never accepted: the parser is then in
Error, and no byte of the buffer has changed. R175 and R102 say this of a FEED of the start delimiter
that comes in mid-record, R116 of a FEED in Error; that a REC row runs the FEEDREC of R83 in one step,
whose first FEED carries as many characters as the phase requests, is the model's choice (log entry 8).
-/
def Obligations.RecordFedMidRecordFails : Prop :=
  ∀ (i : Instr) (s t : State), isRecordRow i = true → s.phase ≠ .awaitStart → exec i s = .next t →
    t.phase = .error ∧ t.buf = s.buf ∧ t.addr = s.addr ∧ t.expCount = s.expCount ∧
    t.input = s.input ∧ t.powerOns = s.powerOns

/-- R84, R131: RESYNC: from every state, RESET and then a legal End-of-File record whose bytes sum to 0
leave that record ready. That the record is fed by one REC row, which runs the FEEDREC of R83 in one
step, is the model's choice (log entry 8); what RESET leaves is the spec's decision D15 (log entry 3).
-/
def Obligations.ResyncRecoversFromEveryState : Prop :=
  ∀ (s : State) (bb ah al cc : CharPair) (n hi lo c : Byte),
    decodeByte bb.first bb.second = some n →
    decodeByte ah.first ah.second = some hi → decodeByte al.first al.second = some lo →
    decodeByte cc.first cc.second = some c →
    (n.toNat + hi.toNat + lo.toNat + 1 + c.toNat) % 256 = 0 →
    ∃ t u, exec .reset s = .next t ∧ exec (.recEof bb ah al cc) t = .next u ∧
      ready u = true ∧ err u = false ∧ u.recType = .endOfFile ∧ u.buf = s.buf

/-- R55, R169 (the spec's own inference): after the next start delimiter the completed record's type
reads Invalid and its length 0, while its address and its buffer bytes are still held. -/
def Obligations.NextStartDelimiterHidesTheRecord : Prop :=
  ∀ s t : State, ready s = true → exec (.feed [0x3A#8]) s = .next t →
    ready t = false ∧ t.recType = .invalid ∧ t.addr = s.addr ∧ t.buf = s.buf ∧
    t.payLen = s.payLen ∧ t.expCount = s.expCount ∧
    exec .getRecord t = .next { t with rsp := .record ⟨.invalid, s.addr, 0#8, []⟩ }

/-- R73, D22: the widest request is 100 characters where the invariant holds, so a chunk beyond the
port's lanes is a length error whatever it carries, the filler of log entry 11 too. -/
def Obligations.ChunkBeyondTheLanesFailsOnLength : Prop :=
  ∀ (s : State) (chunk : List Char8), ParserInv s → expect s ≤ 100 ∧
    (100 < chunk.length → s.phase ≠ .error → FailsOnLength s (exec (.feed chunk) s))
end

