-- ==== Sys2Proof/Laws/Operands.lean ====
section
/-! SUPPORT. The hex-digit decoder, the bytes of a field, the chunk of the lanes and the checksum's
arithmetic. -/

namespace Sys2Proof.Machine

/-- The decoder has a value exactly on the hex digits (R90 to R92). -/
theorem decodeDigit_isSome (c : Char8) : (decodeDigit c).isSome = isHexDigit c := by
  simp only [decodeDigit, isHexDigit]
  split
  · simp_all
  split
  · simp_all
  split
  · simp_all
  · simp_all

theorem decodeDigit_eq_none_iff (c : Char8) : decodeDigit c = none ↔ isHexDigit c = false := by
  rw [← decodeDigit_isSome]; cases decodeDigit c <;> simp

theorem decodeByte_isSome (h l : Char8) :
    (decodeByte h l).isSome = (isHexDigit h && isHexDigit l) := by
  rw [← decodeDigit_isSome, ← decodeDigit_isSome, decodeByte]
  cases decodeDigit h <;> cases decodeDigit l <;> rfl

/-- A field of bytes is a pair that decodes and a field of bytes after it. -/
theorem decodeBytes_cons_cons_iff {h l : Char8} {rest : List Char8} {bs : List Byte} :
    decodeBytes (h :: l :: rest) = some bs ↔
      ∃ b bs', decodeByte h l = some b ∧ decodeBytes rest = some bs' ∧ bs = b :: bs' := by
  simp only [decodeBytes]
  cases decodeByte h l <;> cases decodeBytes rest <;> simp [eq_comm]

/-- The bytes of a field whose first pair decodes. -/
theorem decodeBytes_pair {h l : Char8} {b : Byte} {rest : List Char8} {bs : List Byte}
    (hb : decodeByte h l = some b) (hbs : decodeBytes rest = some bs) :
    decodeBytes (h :: l :: rest) = some (b :: bs) :=
  decodeBytes_cons_cons_iff.2 ⟨b, bs, hb, hbs, rfl⟩

@[simp] theorem decodeBytes_nil : decodeBytes [] = some [] := rfl

/-- A field of one byte (`BB`, `CC`). -/
theorem decodeBytes_one {h l : Char8} {b : Byte} (hb : decodeByte h l = some b) :
    decodeBytes [h, l] = some [b] := decodeBytes_pair hb decodeBytes_nil

/-- A field of two bytes (`AAAA`). -/
theorem decodeBytes_two {h l h' l' : Char8} {b b' : Byte} (hb : decodeByte h l = some b)
    (hb' : decodeByte h' l' = some b') : decodeBytes [h, l, h', l'] = some [b, b'] :=
  decodeBytes_pair hb (decodeBytes_one hb')

/-- A field of bytes has two characters for each byte. -/
theorem decodeBytes_length : ∀ {cs : List Char8} {bs : List Byte},
    decodeBytes cs = some bs → cs.length = 2 * bs.length
  | [], bs, h => by obtain rfl := Option.some.inj h; rfl
  | [_], bs, h => by cases h
  | hi :: lo :: rest, bs, h => by
    obtain ⟨b, bs', -, h', rfl⟩ := decodeBytes_cons_cons_iff.1 h
    simp [decodeBytes_length h']; omega

/-- Every character of a field of bytes is a hex digit. -/
theorem decodeBytes_all_hex : ∀ {cs : List Char8} {bs : List Byte},
    decodeBytes cs = some bs → cs.all isHexDigit = true
  | [], _, _ => rfl
  | [_], _, h => by cases h
  | hi :: lo :: rest, bs, h => by
    obtain ⟨b, bs', hb, h', rfl⟩ := decodeBytes_cons_cons_iff.1 h
    have hex := decodeByte_isSome hi lo
    rw [hb, Option.isSome_some, eq_comm, Bool.and_eq_true] at hex
    simp only [List.all_cons, hex.1, hex.2, decodeBytes_all_hex h', Bool.and_self]

/-- A field with a character that is no hex digit has no bytes (R105). -/
theorem decodeBytes_eq_none {cs : List Char8} (h : cs.all isHexDigit = false) :
    decodeBytes cs = none := by
  cases hd : decodeBytes cs with
  | none => rfl
  | some bs => rw [decodeBytes_all_hex hd] at h; cases h

/-- Each byte of a field comes from its own pair of characters, in wire order (R46). -/
theorem decodeBytes_get : ∀ {cs : List Char8} {bs : List Byte} {k : Nat},
    decodeBytes cs = some bs → k < bs.length → ∃ hi lo b, cs[2 * k]? = some hi ∧
      cs[2 * k + 1]? = some lo ∧ bs[k]? = some b ∧ decodeByte hi lo = some b
  | [], bs, k, h, hk => by obtain rfl := Option.some.inj h; cases hk
  | [_], bs, _, h, _ => by cases h
  | hi :: lo :: rest, bs, k, h, hk => by
    obtain ⟨b, bs', hb, h', rfl⟩ := decodeBytes_cons_cons_iff.1 h
    cases k with
    | zero => exact ⟨hi, lo, b, rfl, rfl, rfl, hb⟩
    | succ k =>
      have hk' : k < bs'.length := by simpa using hk
      obtain ⟨x, y, z, hx, hy, hz, hxy⟩ := decodeBytes_get h' hk'
      exact ⟨x, y, z, by simpa [Nat.mul_succ] using hx, by simpa [Nat.mul_succ] using hy,
        by simpa using hz, hxy⟩

@[simp] theorem chunkOfLanes_length (n : Nat) (lanes : List Char8) :
    (chunkOfLanes n lanes).length = n := by
  induction n generalizing lanes with
  | zero => rfl
  | succ n ih => cases lanes <;> simp [chunkOfLanes, ih]

/-- The chunk's leading characters are the lanes' own. -/
theorem chunkOfLanes_take {n k : Nat} {lanes : List Char8} (hk : k ≤ n) (hl : k ≤ lanes.length) :
    (chunkOfLanes n lanes).take k = lanes.take k := by
  induction k generalizing n lanes with
  | zero => simp
  | succ k ih =>
    cases n with
    | zero => omega
    | succ n =>
      cases lanes with
      | nil => simp at hl
      | cons c cs =>
        simp only [chunkOfLanes, List.take_succ_cons]
        rw [ih (Nat.le_of_succ_le_succ hk) (Nat.le_of_succ_le_succ hl)]

/-- Lanes that hold the whole chunk present it unchanged. -/
theorem chunkOfLanes_self (chunk : List Char8) : chunkOfLanes chunk.length chunk = chunk := by
  have h := chunkOfLanes_take (n := chunk.length) (lanes := chunk) (Nat.le_refl _) (Nat.le_refl _)
  rwa [List.take_of_length_le (by simp), List.take_length] at h

/-- The accumulator after a field is the accumulator before it and the field's sum (R103). -/
theorem accAddAll_eq (a : BitVec 16) (bs : List Byte) :
    accAddAll a bs = a + BitVec.ofNat 16 (bs.map BitVec.toNat).sum := by
  induction bs generalizing a with
  | nil => simp [accAddAll]
  | cons b bs ih =>
    have h : accAddAll a (b :: bs) = accAddAll (accAdd a b) bs := rfl
    rw [h, ih, accAdd]
    apply BitVec.eq_of_toNat_eq
    simp only [BitVec.toNat_add, BitVec.toNat_setWidth, BitVec.toNat_ofNat, List.map_cons,
      List.sum_cons]
    omega

/-- The checksum's test is the sum's remainder modulo 256 (R103). -/
theorem sumIsZero_iff (t : BitVec 16) : sumIsZero t = true ↔ t.toNat % 256 = 0 := by
  rw [sumIsZero, beq_iff_eq, ← BitVec.toNat_inj]
  simp

/-- The test looks at the low 8 bits alone (R24). -/
theorem sumIsZero_congr {a b : BitVec 16} (h : a.setWidth 8 = b.setWidth 8) :
    sumIsZero a = sumIsZero b := by simp [sumIsZero, h]

/-- The low 8 bits of a sum depend on the low 8 bits alone (R24). -/
theorem accAdd_low_congr {a b : BitVec 16} (h : a.setWidth 8 = b.setWidth 8) (v : Byte) :
    (accAdd a v).setWidth 8 = (accAdd b v).setWidth 8 := by
  have h' := congrArg BitVec.toNat h
  apply BitVec.eq_of_toNat_eq
  simp only [BitVec.toNat_setWidth, accAdd, BitVec.toNat_add] at h' ⊢
  omega

theorem accAddAll_low_congr {a b : BitVec 16} (h : a.setWidth 8 = b.setWidth 8) (vs : List Byte) :
    (accAddAll a vs).setWidth 8 = (accAddAll b vs).setWidth 8 := by
  induction vs generalizing a b with
  | nil => exact h
  | cons v vs ih => exact ih (accAdd_low_congr h v)

theorem joinAddr_toNat (hi lo : Byte) : (joinAddr hi lo).toNat = 256 * hi.toNat + lo.toNat := by
  have h1 := hi.isLt
  have h2 := lo.isLt
  have e : (hi.setWidth 16 <<< 8 : BitVec 16).toNat = hi.toNat <<< 8 := by
    simp only [BitVec.toNat_shiftLeft, BitVec.toNat_setWidth, Nat.shiftLeft_eq]
    omega
  rw [joinAddr, BitVec.toNat_or, e, BitVec.toNat_setWidth, Nat.mod_eq_of_lt (by omega),
    ← Nat.shiftLeft_add_eq_or_of_lt h2, Nat.shiftLeft_eq]
  omega

end Sys2Proof.Machine
end

