-- ==== Sys2Proof/Laws/Decode.lean ====
section
/-! SUPPORT. What the decoder reads from the words the encoder writes: the chunk of the lanes and the
parts of a record. -/

namespace Sys2Proof

open Machine

/-- The checksum field is split off the payload that stands before it. -/
theorem splitChecksum_append : ∀ (dd : List Char8) (a b : Char8),
    splitChecksum (dd ++ [a, b]) = some (dd, ⟨a, b⟩)
  | [], _, _ => rfl
  | [_], _, _ => rfl
  | x :: y :: rest, a, b => by
    have h := splitChecksum_append (y :: rest) a b
    cases rest with
    | nil => rfl
    | cons z rest =>
      simp only [List.cons_append] at h ⊢
      simp only [splitChecksum, h]

/-- A Data record's characters decode to its fields. -/
theorem decodeRecord_data (bb ah al : CharPair) (dd : List Char8) (cc : CharPair) :
    decodeRecord (dataRecordChars bb ah al dd cc) = .instr (.recData bb ah al dd cc) := by
  simp [dataRecordChars, decodeRecord, splitChecksum_append]

/-- An End-of-File record's characters decode to its fields. -/
theorem decodeRecord_eof (bb ah al cc : CharPair) :
    decodeRecord (eofRecordChars bb ah al cc) = .instr (.recEof bb ah al cc) := by
  simp [eofRecordChars, decodeRecord, charZero, charOne]

/-- The lanes of an encoded chunk present the chunk as the port carries it. -/
theorem chunkOfLanes_encoded {chunk : List Char8} (h : chunk.length < 2 ^ 16) :
    chunkOfLanes (BitVec.ofNat 16 chunk.length).toNat (chunk.take Config.chunkLanes) =
      presentedChunk chunk := by
  rw [BitVec.toNat_ofNat, Nat.mod_eq_of_lt h, presentedChunk]

/-- A chunk that fits the lanes is presented whole. -/
theorem presentedChunk_self {chunk : List Char8} (h : chunk.length ≤ Config.chunkLanes) :
    presentedChunk chunk = chunk := by
  rw [presentedChunk, List.take_of_length_le h, chunkOfLanes_self]

end Sys2Proof
end

