-- ==== Sys2Proof/Laws/Memory.lean ====
section
/-! SUPPORT. The laws of the payload buffer: a read after a write, what a write leaves alone, and
that every operation keeps the canonical form. -/

namespace Sys2Proof.Machine

@[simp] theorem Memory.read_nil (i : Nat) : Memory.read [] i = none := rfl

theorem Memory.read_cons (a : Nat) (b : Byte) (m : Memory) (i : Nat) :
    Memory.read ((a, b) :: m) i = if a = i then some b else Memory.read m i := rfl

theorem Memory.write_cons (a : Nat) (b : Byte) (m : Memory) (i : Nat) (v : Byte) :
    Memory.write ((a, b) :: m) i v =
      if i < a then (i, v) :: (a, b) :: m
      else if i = a then (i, v) :: m else (a, b) :: Memory.write m i v := rfl

/-- What one write makes readable, index by index. -/
theorem Memory.read_write (m : Memory) (i j : Nat) (v : Byte) :
    Memory.read (Memory.write m i v) j = if j = i then some v else Memory.read m j := by
  induction m with
  | nil => simp [Memory.write, Memory.read, eq_comm]
  | cons c m ih =>
    obtain ⟨a, b⟩ := c
    rw [Memory.write_cons]
    split
    · simp only [Memory.read_cons, eq_comm]
    split
    · subst_vars
      simp only [Memory.read_cons]
      by_cases h : j = a
      · simp [h]
      · simp [h, Ne.symm h]
    · rename_i hne
      simp only [Memory.read_cons, ih]
      by_cases h : a = j
      · subst h; simp [Ne.symm hne]
      · simp [h]

theorem Memory.read_write_same (m : Memory) (i : Nat) (v : Byte) :
    Memory.read (Memory.write m i v) i = some v := by simp [Memory.read_write]

theorem Memory.read_write_other (m : Memory) {i j : Nat} (v : Byte) (h : j ≠ i) :
    Memory.read (Memory.write m i v) j = Memory.read m j := by simp [Memory.read_write, h]

/-- A write lists no index but those listed before and its own. -/
theorem Memory.mem_write {m : Memory} {i : Nat} {v : Byte} {c : Host.Cell}
    (h : c ∈ Memory.write m i v) : c = (i, v) ∨ c ∈ m := by
  induction m with
  | nil => simpa [Memory.write] using h
  | cons d m ih =>
    obtain ⟨a, b⟩ := d
    rw [Memory.write_cons] at h
    split at h
    · simpa using h
    split at h
    · rcases List.mem_cons.1 h with h | h <;> simp [h]
    · rcases List.mem_cons.1 h with h | h
      · simp [h]
      · rcases ih h with h | h <;> simp [h]

theorem Memory.wf_nil : Memory.wf [] := by simp [Memory.wf]

/-- A write inside the buffer keeps the canonical form. -/
theorem Memory.wf_write {m : Memory} {i : Nat} (v : Byte) (hm : Memory.wf m)
    (hi : i < Config.maxPayload) : Memory.wf (Memory.write m i v) := by
  refine ⟨?_, fun c hc => ?_⟩
  · obtain ⟨hp, -⟩ := hm
    induction m with
    | nil => simp [Memory.write]
    | cons d m ih =>
      obtain ⟨a, b⟩ := d
      obtain ⟨ha, hp⟩ := List.pairwise_cons.1 hp
      rw [Memory.write_cons]
      split
      · rename_i hlt
        refine List.pairwise_cons.2 ⟨fun c hc => ?_, List.pairwise_cons.2 ⟨ha, hp⟩⟩
        rcases List.mem_cons.1 hc with rfl | hc
        · exact hlt
        · exact Nat.lt_trans hlt (ha c hc)
      split
      · subst_vars
        exact List.pairwise_cons.2 ⟨ha, hp⟩
      · refine List.pairwise_cons.2 ⟨fun c hc => ?_, ih hp⟩
        rcases Memory.mem_write hc with rfl | hc
        · show a < i; omega
        · exact ha c hc
  · rcases Memory.mem_write hc with rfl | hc
    · exact hi
    · exact hm.2 c hc

/-- A block written inside the buffer keeps the canonical form. -/
theorem Memory.wf_writeBlock {m : Memory} {i : Nat} {vs : List Byte} (hm : Memory.wf m)
    (hi : i + vs.length ≤ Config.maxPayload) : Memory.wf (Memory.writeBlock m i vs) := by
  induction vs generalizing m i with
  | nil => exact hm
  | cons v vs ih =>
    simp only [List.length_cons] at hi
    exact ih (Memory.wf_write v hm (by omega)) (by omega)

/-- What a block write makes readable: its bytes at ascending indices, and all else as before. -/
theorem Memory.read_writeBlock (m : Memory) (i j : Nat) (vs : List Byte) :
    Memory.read (Memory.writeBlock m i vs) j =
      if i ≤ j ∧ j < i + vs.length then vs[j - i]? else Memory.read m j := by
  induction vs generalizing m i with
  | nil =>
    have : ¬ (i ≤ j ∧ j < i) := by omega
    simp [Memory.writeBlock, this]
  | cons v vs ih =>
    simp only [Memory.writeBlock, ih, Memory.read_write, List.length_cons]
    by_cases h : j = i
    · subst h
      simp
    · by_cases h2 : i + 1 ≤ j ∧ j < i + 1 + vs.length
      · have h3 : i ≤ j ∧ j < i + (vs.length + 1) := by omega
        have h4 : j - i = (j - (i + 1)) + 1 := by omega
        simp [h2, h3, h4]
      · have h3 : ¬ (i ≤ j ∧ j < i + (vs.length + 1)) := by omega
        rw [if_neg h2, if_neg h, if_neg h3]

/-- The reset state's buffer has the canonical form. -/
theorem reset_buf_wf : Memory.wf State.reset.buf := Memory.wf_nil

/-- Hardware reset leaves a buffer in the canonical form. -/
theorem hardwareReset_buf_wf (s : State) : Memory.wf (hardwareReset s).buf := Memory.wf_nil

end Sys2Proof.Machine
end

