-- ==== Sys2Proof/Laws/State.lean ====
section
/-! SUPPORT. One lemma per field per update of State, all by rfl, so that no proof unfolds a record
update; and the derived values under the updates that leave their registers alone. -/

namespace Sys2Proof.Machine

@[simp] theorem respond_phase (r : Response) (s : State) : (respond r s).phase = s.phase := rfl
@[simp] theorem respond_expCount (r : Response) (s : State) : (respond r s).expCount = s.expCount := rfl
@[simp] theorem respond_addr (r : Response) (s : State) : (respond r s).addr = s.addr := rfl
@[simp] theorem respond_acc (r : Response) (s : State) : (respond r s).acc = s.acc := rfl
@[simp] theorem respond_payLen (r : Response) (s : State) : (respond r s).payLen = s.payLen := rfl
@[simp] theorem respond_recType (r : Response) (s : State) : (respond r s).recType = s.recType := rfl
@[simp] theorem respond_buf (r : Response) (s : State) : (respond r s).buf = s.buf := rfl
@[simp] theorem respond_rsp (r : Response) (s : State) : (respond r s).rsp = r := rfl
@[simp] theorem respond_input (r : Response) (s : State) : (respond r s).input = s.input := rfl
@[simp] theorem respond_draws (r : Response) (s : State) : (respond r s).draws = s.draws := rfl
@[simp] theorem respond_powerOns (r : Response) (s : State) : (respond r s).powerOns = s.powerOns := rfl

@[simp] theorem accept_phase (s : State) : (accept s).phase = s.phase := rfl
@[simp] theorem accept_expCount (s : State) : (accept s).expCount = s.expCount := rfl
@[simp] theorem accept_addr (s : State) : (accept s).addr = s.addr := rfl
@[simp] theorem accept_acc (s : State) : (accept s).acc = s.acc := rfl
@[simp] theorem accept_payLen (s : State) : (accept s).payLen = s.payLen := rfl
@[simp] theorem accept_recType (s : State) : (accept s).recType = s.recType := rfl
@[simp] theorem accept_buf (s : State) : (accept s).buf = s.buf := rfl
@[simp] theorem accept_rsp (s : State) : (accept s).rsp = .request (expect s) := rfl
@[simp] theorem accept_input (s : State) : (accept s).input = s.input := rfl
@[simp] theorem accept_draws (s : State) : (accept s).draws = s.draws := rfl
@[simp] theorem accept_powerOns (s : State) : (accept s).powerOns = s.powerOns := rfl

@[simp] theorem raiseError_phase (c : Cause) (s : State) : (raiseError c s).phase = .error := rfl
@[simp] theorem raiseError_expCount (c : Cause) (s : State) : (raiseError c s).expCount = s.expCount := rfl
@[simp] theorem raiseError_addr (c : Cause) (s : State) : (raiseError c s).addr = s.addr := rfl
@[simp] theorem raiseError_acc (c : Cause) (s : State) : (raiseError c s).acc = s.acc := rfl
@[simp] theorem raiseError_payLen (c : Cause) (s : State) : (raiseError c s).payLen = s.payLen := rfl
@[simp] theorem raiseError_recType (c : Cause) (s : State) : (raiseError c s).recType = s.recType := rfl
@[simp] theorem raiseError_buf (c : Cause) (s : State) : (raiseError c s).buf = s.buf := rfl
@[simp] theorem raiseError_rsp (c : Cause) (s : State) : (raiseError c s).rsp = .request (errReq c s.draws) := rfl
@[simp] theorem raiseError_input (c : Cause) (s : State) : (raiseError c s).input = s.input := rfl
@[simp] theorem raiseError_draws (c : Cause) (s : State) : (raiseError c s).draws = s.draws + 1 := rfl
@[simp] theorem raiseError_powerOns (c : Cause) (s : State) : (raiseError c s).powerOns = s.powerOns := rfl

@[simp] theorem resetParser_phase (s : State) : (resetParser s).phase = .awaitStart := rfl
@[simp] theorem resetParser_expCount (s : State) : (resetParser s).expCount = s.expCount := rfl
@[simp] theorem resetParser_addr (s : State) : (resetParser s).addr = s.addr := rfl
@[simp] theorem resetParser_acc (s : State) : (resetParser s).acc = 0#16 := rfl
@[simp] theorem resetParser_payLen (s : State) : (resetParser s).payLen = s.payLen := rfl
@[simp] theorem resetParser_recType (s : State) : (resetParser s).recType = .invalid := rfl
@[simp] theorem resetParser_buf (s : State) : (resetParser s).buf = s.buf := rfl
@[simp] theorem resetParser_rsp (s : State) : (resetParser s).rsp = .none := rfl
@[simp] theorem resetParser_input (s : State) : (resetParser s).input = s.input := rfl
@[simp] theorem resetParser_draws (s : State) : (resetParser s).draws = s.draws := rfl
@[simp] theorem resetParser_powerOns (s : State) : (resetParser s).powerOns = s.powerOns := rfl

@[simp] theorem hardwareReset_phase (s : State) : (hardwareReset s).phase = .awaitStart := rfl
@[simp] theorem hardwareReset_expCount (s : State) : (hardwareReset s).expCount = 0#8 := rfl
@[simp] theorem hardwareReset_addr (s : State) : (hardwareReset s).addr = 0#16 := rfl
@[simp] theorem hardwareReset_acc (s : State) : (hardwareReset s).acc = 0#16 := rfl
@[simp] theorem hardwareReset_payLen (s : State) : (hardwareReset s).payLen = 0#8 := rfl
@[simp] theorem hardwareReset_recType (s : State) : (hardwareReset s).recType = .invalid := rfl
@[simp] theorem hardwareReset_buf (s : State) : (hardwareReset s).buf = [] := rfl
@[simp] theorem hardwareReset_rsp (s : State) : (hardwareReset s).rsp = .none := rfl
@[simp] theorem hardwareReset_input (s : State) : (hardwareReset s).input = s.input := rfl
@[simp] theorem hardwareReset_draws (s : State) : (hardwareReset s).draws = s.draws := rfl
@[simp] theorem hardwareReset_powerOns (s : State) : (hardwareReset s).powerOns = s.powerOns + 1 := rfl

theorem idleCycle_eq (s : State) : idleCycle s = respond .none s := rfl
theorem ignored_eq (s : State) : ignored s = respond .none s := rfl
theorem decodeCharacter_eq (c : Char8) (s : State) :
    decodeCharacter c s = respond (.digit (decodeDigit c)) s := rfl

@[simp] theorem respond_respond (r q : Response) (s : State) :
    respond r (respond q s) = respond r s := rfl
@[simp] theorem expect_respond (r : Response) (s : State) : expect (respond r s) = expect s := rfl
@[simp] theorem ready_respond (r : Response) (s : State) : ready (respond r s) = ready s := rfl
@[simp] theorem err_respond (r : Response) (s : State) : err (respond r s) = err s := rfl
@[simp] theorem bufByte_respond (r : Response) (s : State) (k : Nat) :
    bufByte (respond r s) k = bufByte s k := rfl
@[simp] theorem expect_accept (s : State) : expect (accept s) = expect s := rfl
@[simp] theorem ready_accept (s : State) : ready (accept s) = ready s := rfl
@[simp] theorem err_accept (s : State) : err (accept s) = err s := rfl
@[simp] theorem bufByte_accept (s : State) (k : Nat) : bufByte (accept s) k = bufByte s k := rfl
@[simp] theorem bufByte_raiseError (c : Cause) (s : State) (k : Nat) :
    bufByte (raiseError c s) k = bufByte s k := rfl
@[simp] theorem err_raiseError (c : Cause) (s : State) : err (raiseError c s) = true := rfl
@[simp] theorem ready_raiseError (c : Cause) (s : State) : ready (raiseError c s) = false := rfl

theorem ready_iff (s : State) : ready s = true ↔ s.phase = .awaitStart ∧ s.recType ≠ .invalid := by
  simp [ready]

theorem err_iff (s : State) : err s = true ↔ s.phase = .error := by simp [err]

/-- The draw of a length mismatch is positive (R104). -/
theorem errReq_len_pos (k : Nat) : 0 < errReq .len k := Nat.succ_pos _

end Sys2Proof.Machine
end

