-- ==== Sys2Proof/Laws/Feed.lean ====
section
/-! SUPPORT. Everything a FEED can do, said once (spec/41_feed.md), and what follows for the loop that
feeds a whole record (spec/30_encoding.md R83). -/

namespace Sys2Proof.Machine

/-- What a FEED of a chunk may leave of a state: one constructor for each way to end (R100). -/
inductive FeedEffect (chunk : List Char8) (s : State) : State → Prop
  | inert : s.phase = .error → FeedEffect chunk s (respond (.request 0) s)
  | failed (c : Cause) : s.phase ≠ .error → FeedEffect chunk s (raiseError c s)
  | start : s.phase = .awaitStart → chunk = [startDelimiter] →
      FeedEffect chunk s (accept { s with recType := .invalid, acc := 0#16, phase := .awaitByteCount })
  | count (b : Byte) : s.phase = .awaitByteCount → decodeBytes chunk = some [b] →
      FeedEffect chunk s (accept { s with expCount := b, acc := accAdd s.acc b, phase := .awaitAddress })
  | address (hi lo : Byte) : s.phase = .awaitAddress → decodeBytes chunk = some [hi, lo] →
      FeedEffect chunk s (accept { s with
        addr := joinAddr hi lo, acc := accAdd (accAdd s.acc hi) lo, phase := .awaitRecordType })
  | typeData : s.phase = .awaitRecordType → chunk = [charZero, charZero] →
      s.expCount.toNat ≤ Config.maxPayload →
      FeedEffect chunk s (accept { s with acc := accAdd s.acc 0#8, phase := .awaitData })
  | typeEof : s.phase = .awaitRecordType → chunk = [charZero, charOne] →
      FeedEffect chunk s (accept { s with
        acc := accAdd s.acc 1#8, recType := .endOfFile, phase := .awaitChecksum })
  | data (bytes : List Byte) : s.phase = .awaitData → decodeBytes chunk = some bytes →
      bytes.length = s.expCount.toNat → s.expCount.toNat ≤ Config.maxPayload →
      FeedEffect chunk s (accept { s with
        buf := Memory.writeBlock s.buf 0 bytes, acc := accAddAll s.acc bytes,
        recType := .data, payLen := s.expCount, phase := .awaitChecksum })
  | checksum (c : Byte) : s.phase = .awaitChecksum → decodeBytes chunk = some [c] →
      sumIsZero (accAdd s.acc c) = true →
      FeedEffect chunk s (accept { s with acc := accAdd s.acc c, phase := .awaitStart })

/-- A FEED that answers a next state did one of these. -/
theorem execFeed_effect {chunk : List Char8} {s t : State} (h : execFeed chunk s = .next t) :
    FeedEffect chunk s t := by
  have failed : ∀ c, s.phase ≠ .error →
      (Host.Outcome.next (raiseError c s) : Host.Outcome State Fault Refusal) = .next t →
      FeedEffect chunk s t := by
    intro c hp he
    obtain rfl := Host.Outcome.next.inj he
    exact .failed c hp
  cases hp : s.phase <;> simp only [execFeed, hp, lengthChecked] at h
  case error =>
    obtain rfl := Host.Outcome.next.inj h
    exact .inert hp
  all_goals
    split at h
    case isFalse => exact failed .len (by simp [hp]) h
  case awaitStart.isTrue hl =>
    match chunk, hl with
    | [c], _ =>
      simp only [startField] at h
      split at h
      · obtain rfl := Host.Outcome.next.inj h
        subst_vars
        exact .start hp rfl
      · exact failed .start (by simp [hp]) h
    | [], hl => simp [expect, hp] at hl
    | _ :: _ :: _, hl => simp [expect, hp] at hl
  case awaitByteCount.isTrue =>
    simp only [countField] at h
    split at h
    · obtain rfl := Host.Outcome.next.inj h
      exact .count _ hp ‹_›
    · exact failed .hex (by simp [hp]) h
  case awaitAddress.isTrue =>
    simp only [addrField] at h
    split at h
    · obtain rfl := Host.Outcome.next.inj h
      exact .address _ _ hp ‹_›
    · exact failed .hex (by simp [hp]) h
  case awaitRecordType.isTrue =>
    simp only [typeField] at h
    split at h
    · split at h
      · exact failed .count (by simp [hp]) h
      · obtain rfl := Host.Outcome.next.inj h
        exact .typeData hp ‹_› (Nat.le_of_not_lt ‹_›)
    split at h
    · obtain rfl := Host.Outcome.next.inj h
      exact .typeEof hp ‹_›
    · exact failed .type (by simp [hp]) h
  case awaitData.isTrue hl =>
    simp only [dataField] at h
    split at h
    · rename_i bytes hb
      split at h
      · cases h
      · obtain rfl := Host.Outcome.next.inj h
        have := decodeBytes_length hb
        simp only [expect, hp] at hl
        exact .data bytes hp hb (by omega) (Nat.le_of_not_lt ‹_›)
    · exact failed .hex (by simp [hp]) h
  case awaitChecksum.isTrue =>
    simp only [csumField] at h
    split at h
    · split at h
      · obtain rfl := Host.Outcome.next.inj h
        exact .checksum _ hp ‹_› ‹_›
      · exact failed .csum (by simp [hp]) h
    · exact failed .hex (by simp [hp]) h

/-- A FEED never ends in a refusal. -/
theorem execFeed_not_refused (chunk : List Char8) (s : State) (r : Refusal) :
    execFeed chunk s ≠ .refused r := by
  intro h
  cases hp : s.phase <;>
    simp only [execFeed, hp, lengthChecked, startField, countField, addrField, typeField, dataField,
      csumField, inertFeed] at h <;>
    repeat (first | cases h | split at h)

/-- A FEED faults only in phase AwaitData with a byte count above the buffer's size. -/
theorem execFeed_fault {chunk : List Char8} {s : State} {f : Fault} (h : execFeed chunk s = .fault f) :
    s.phase = .awaitData ∧ Config.maxPayload < s.expCount.toNat := by
  cases hp : s.phase <;>
    simp only [execFeed, hp, lengthChecked, startField, countField, addrField, typeField, dataField,
      csumField, inertFeed] at h <;>
    repeat (first | contradiction | exact ⟨rfl, ‹_›⟩ | split at h)

/-- Where the byte count of the data phase is in bounds, FEED answers a next state. -/
theorem execFeed_completes {chunk : List Char8} {s : State}
    (hb : s.phase = .awaitData → s.expCount.toNat ≤ Config.maxPayload) :
    ∃ t, execFeed chunk s = .next t := by
  cases h : execFeed chunk s with
  | next t => exact ⟨t, rfl⟩
  | fault f => have := execFeed_fault h; have := hb this.1; omega
  | refused r => exact absurd h (execFeed_not_refused _ _ _)

/-- What every FEED keeps, feeding a whole record keeps. -/
theorem feedUntilDone_keeps {P : State → Prop}
    (hstep : ∀ chunk s t, P s → execFeed chunk s = .next t → P t) :
    ∀ {fuel : Nat} {chars : List Char8} {s t : State}, P s →
      feedUntilDone fuel chars s = .next t → P t
  | 0, _, _, _, hs, h => by obtain rfl := Host.Outcome.next.inj h; exact hs
  | fuel + 1, chars, s, t, hs, h => by
    simp only [feedUntilDone] at h
    split at h
    · rename_i u hu
      split at h
      · obtain rfl := Host.Outcome.next.inj h; exact hstep _ _ _ hs hu
      · exact feedUntilDone_keeps hstep (hstep _ _ _ hs hu) h
    · cases h
    · cases h

/-- Where what every FEED keeps bounds the byte count of the data phase, feeding a whole record
answers a next state. -/
theorem feedUntilDone_completes {P : State → Prop}
    (hstep : ∀ chunk s t, P s → execFeed chunk s = .next t → P t)
    (hbound : ∀ s, P s → s.phase = .awaitData → s.expCount.toNat ≤ Config.maxPayload) :
    ∀ (fuel : Nat) (chars : List Char8) {s : State}, P s → ∃ t, feedUntilDone fuel chars s = .next t
  | 0, _, s, _ => ⟨s, rfl⟩
  | fuel + 1, chars, s, hs => by
    obtain ⟨u, hu⟩ := execFeed_completes (chunk := chars.take (expect s)) (hbound s hs)
    simp only [feedUntilDone, hu]
    split
    · exact ⟨u, rfl⟩
    · exact feedUntilDone_completes hstep hbound fuel _ (hstep _ _ _ hs hu)

/-- One turn of the loop that is not its last. -/
theorem feedUntilDone_turn {fuel : Nat} {chars : List Char8} {s t : State}
    (hs : execFeed (chars.take (expect s)) s = .next t) (he : err t = false) (hr : ready t = false) :
    feedUntilDone (fuel + 1) chars s = feedUntilDone fuel (chars.drop (expect s)) t := by
  simp [feedUntilDone, hs, he, hr]

/-- The loop's last turn. -/
theorem feedUntilDone_last {fuel : Nat} {chars : List Char8} {s t : State}
    (hs : execFeed (chars.take (expect s)) s = .next t) (h : err t = true ∨ ready t = true) :
    feedUntilDone (fuel + 1) chars s = .next t := by
  rcases h with h | h <;> simp [feedUntilDone, hs, h]

end Sys2Proof.Machine
end

