-- ==== Sys2Proof/Laws/PerInstr.lean ====
section
/-! SUPPORT. Per instruction: its code word carries the format and the selecting bits of its row of the
opcode table (spec/30_encoding.md R74). -/

namespace Sys2Proof.Laws.EncodedRow

/-- The encoded word is selected by the instruction's own row. -/
def Statement (i : Instr) : Prop := (encode i).row = some i.row

theorem feed (chunk : List Char8) : Statement (.feed chunk) := rfl
theorem isReady : Statement .isReady := rfl
theorem getRecord : Statement .getRecord := rfl
theorem getError : Statement .getError := rfl
theorem getType : Statement .getType := rfl
theorem reset : Statement .reset := rfl
theorem reserved6 : Statement .reserved6 := rfl
theorem reserved7 : Statement .reserved7 := rfl
theorem feedStart (chunk : List Char8) : Statement (.feedStart chunk) := rfl
theorem feedCount (chunk : List Char8) : Statement (.feedCount chunk) := rfl
theorem feedAddr (chunk : List Char8) : Statement (.feedAddr chunk) := rfl
theorem feedType (chunk : List Char8) : Statement (.feedType chunk) := rfl
theorem feedData (chunk : List Char8) : Statement (.feedData chunk) := rfl
theorem feedCsum (chunk : List Char8) : Statement (.feedCsum chunk) := rfl
theorem feedErr (chunk : List Char8) : Statement (.feedErr chunk) := rfl
theorem recData (bb ah al : CharPair) (dd : List Char8) (cc : CharPair) :
    Statement (.recData bb ah al dd cc) := rfl
theorem recEof (bb ah al cc : CharPair) : Statement (.recEof bb ah al cc) := rfl
theorem charStart : Statement .charStart := rfl
theorem charHex0 : Statement .charHex0 := rfl
theorem charHex1 : Statement .charHex1 := rfl
theorem charHex2 : Statement .charHex2 := rfl
theorem charHex3 : Statement .charHex3 := rfl
theorem charHex4 : Statement .charHex4 := rfl
theorem charHex5 : Statement .charHex5 := rfl
theorem charHex6 : Statement .charHex6 := rfl
theorem charHex7 : Statement .charHex7 := rfl
theorem charHex8 : Statement .charHex8 := rfl
theorem charHex9 : Statement .charHex9 := rfl
theorem charHexUpA : Statement .charHexUpA := rfl
theorem charHexUpB : Statement .charHexUpB := rfl
theorem charHexUpC : Statement .charHexUpC := rfl
theorem charHexUpD : Statement .charHexUpD := rfl
theorem charHexUpE : Statement .charHexUpE := rfl
theorem charHexUpF : Statement .charHexUpF := rfl
theorem charHexLoA : Statement .charHexLoA := rfl
theorem charHexLoB : Statement .charHexLoB := rfl
theorem charHexLoC : Statement .charHexLoC := rfl
theorem charHexLoD : Statement .charHexLoD := rfl
theorem charHexLoE : Statement .charHexLoE := rfl
theorem charHexLoF : Statement .charHexLoF := rfl

end Sys2Proof.Laws.EncodedRow
end

