-- ==== Sys2Proof/Laws/Step.lean ====
section
/-! SUPPORT. Everything an instruction, and a step, can do, said once. -/

namespace Sys2Proof.Machine

/-- An instruction that answers a next state feeds a chunk (a FEED row, or CHAR.START), feeds a whole
record, resets the parser, or only responds. -/
theorem exec_effect {i : Instr} {s t : State} (h : exec i s = .next t) :
    (∃ chunk, FeedEffect chunk s t ∧ execFeed chunk s = .next t ∧ i.row.format ≠ .record ∧ i ≠ .reset ∧
      (s.phase = .awaitChecksum → t.phase = .awaitStart → i = .feed chunk ∨ i = .feedCsum chunk)) ∨
    (∃ chars, feedRecord chars s = .next t ∧ chars.head? = some startDelimiter ∧
      i.row.format = .record) ∨
    (i = .reset ∧ t = resetParser s) ∨
    (∃ r, t = respond r s ∧ i.row.format ≠ .record ∧ i ≠ .reset) := by
  have fed : ∀ {chunk p}, i.row.format ≠ .record → i ≠ .reset →
      (i = .feed chunk ∨ i = .feedCsum chunk ∨ p ≠ .awaitChecksum) → s.phase = p →
      execFeed chunk s = .next t →
      ∃ chunk, FeedEffect chunk s t ∧ execFeed chunk s = .next t ∧ i.row.format ≠ .record ∧ i ≠ .reset ∧
      (s.phase = .awaitChecksum → t.phase = .awaitStart → i = .feed chunk ∨ i = .feedCsum chunk) := by
    rintro chunk p h1 h2 h3 hp he
    refine ⟨chunk, execFeed_effect he, he, h1, h2, fun hc _ => ?_⟩
    rcases h3 with h3 | h3 | h3
    · exact .inl h3
    · exact .inr h3
    · exact absurd (hp ▸ hc) h3
  have row : ∀ {p : Phase} {m : Host.Outcome State Fault Refusal}, selectedBy p s m = .next t →
      s.phase = p ∧ m = .next t := by
    intro p m hm
    simp only [selectedBy] at hm
    split at hm
    · exact ⟨‹_›, hm⟩
    · cases hm
  cases i
  case feed chunk => exact .inl (fed (by simp [Instr.row]) (by simp) (.inl rfl) rfl h)
  case feedStart chunk =>
    obtain ⟨hp, hm⟩ := row h
    exact .inl (fed (chunk := chunk) (by simp [Instr.row]) (by simp) (.inr (.inr (by decide))) hp (by simpa [execFeed, hp] using hm))
  case feedCount chunk =>
    obtain ⟨hp, hm⟩ := row h
    exact .inl (fed (chunk := chunk) (by simp [Instr.row]) (by simp) (.inr (.inr (by decide))) hp (by simpa [execFeed, hp] using hm))
  case feedAddr chunk =>
    obtain ⟨hp, hm⟩ := row h
    exact .inl (fed (chunk := chunk) (by simp [Instr.row]) (by simp) (.inr (.inr (by decide))) hp (by simpa [execFeed, hp] using hm))
  case feedType chunk =>
    obtain ⟨hp, hm⟩ := row h
    exact .inl (fed (chunk := chunk) (by simp [Instr.row]) (by simp) (.inr (.inr (by decide))) hp (by simpa [execFeed, hp] using hm))
  case feedData chunk =>
    obtain ⟨hp, hm⟩ := row h
    exact .inl (fed (chunk := chunk) (by simp [Instr.row]) (by simp) (.inr (.inr (by decide))) hp (by simpa [execFeed, hp] using hm))
  case feedCsum chunk =>
    obtain ⟨hp, hm⟩ := row h
    exact .inl (fed (chunk := chunk) (by simp [Instr.row]) (by simp) (.inr (.inl rfl)) hp (by simpa [execFeed, hp] using hm))
  case feedErr chunk =>
    obtain ⟨hp, hm⟩ := row h
    exact .inl (fed (chunk := chunk) (by simp [Instr.row]) (by simp) (.inr (.inr (by decide))) hp (by simpa [execFeed, hp] using hm))
  case charStart =>
    have hcs : execFeed [startDelimiter] s = .next t := h
    refine .inl ⟨_, execFeed_effect hcs, hcs, by decide, by simp, fun hc ha => ?_⟩
    simp only [execFeed, hc, lengthChecked, expect] at hcs
    obtain rfl := Host.Outcome.next.inj hcs
    cases ha
  case recData bb ah al dd cc => exact .inr (.inl ⟨_, h, rfl, rfl⟩)
  case recEof bb ah al cc => exact .inr (.inl ⟨_, h, rfl, rfl⟩)
  case reset => exact .inr (.inr (.inl ⟨rfl, (Host.Outcome.next.inj h).symm⟩))
  case getRecord =>
    simp only [exec, execGetRecord] at h
    split at h
    · cases h
    · exact .inr (.inr (.inr ⟨_, (Host.Outcome.next.inj h).symm, by decide, by simp⟩))
  all_goals exact .inr (.inr (.inr ⟨_, (Host.Outcome.next.inj h).symm, by decide, by simp⟩))

/-- A cycle that applies a decodable command runs the decoded instruction. -/
theorem step_instr {s : State} {word : CodeWord} {rest : List PortCycle} {i : Instr}
    (hi : s.input = ⟨false, true, word⟩ :: rest) (hd : decode word = .instr i) :
    step s = exec i { s with input := rest } := by
  simp [step, fetchCycle, hi, hd]

/-- A step that answers a next state idles, resets the hardware, runs the decoded instruction, feeds
an undecodable record or classifies a character that has no row. -/
theorem step_effect {s t : State} (h : step s = .next t) :
    (∃ u, t = respond .none u ∧ (u = s ∨ ∃ c rest, s.input = c :: rest ∧ u = { s with input := rest })) ∨
    (∃ c rest, s.input = c :: rest ∧ c.rst = true ∧ t = hardwareReset { s with input := rest }) ∨
    (∃ c rest i, s.input = c :: rest ∧ c.rst = false ∧ c.valid = true ∧ decode c.word = .instr i ∧
      exec i { s with input := rest } = .next t) ∨
    (∃ c rest, s.input = c :: rest ∧
      ((∃ chars, feedRecord chars { s with input := rest } = .next t) ∨
        ∃ r, t = respond r { s with input := rest })) := by
  simp only [step, fetchCycle] at h
  split at h
  · exact .inl ⟨s, (Host.Outcome.next.inj h).symm, .inl rfl⟩
  rename_i c u hc
  split at hc
  · cases hc
  rename_i c' rest hin
  obtain ⟨rfl, rfl⟩ := Prod.mk.inj (Option.some.inj hc)
  split at h
  · exact .inr (.inl ⟨_, _, hin, ‹_›, (Host.Outcome.next.inj h).symm⟩)
  rename_i hrst
  split at h
  · rename_i hv
    split at h
    · exact .inr (.inr (.inl ⟨_, _, _, hin, by simpa using hrst, hv, ‹_›, h⟩))
    · refine .inr (.inr (.inr ⟨_, _, hin, ?_⟩))
      simp only [execUndecoded] at h
      split at h
      · exact .inl ⟨_, h⟩
      · exact .inr ⟨_, (Host.Outcome.next.inj h).symm⟩
      · cases h
      · cases h
  · exact .inl ⟨_, (Host.Outcome.next.inj h).symm, .inr ⟨_, _, hin, rfl⟩⟩

end Sys2Proof.Machine
end

