-- ==== Sys2Proof/Tests/Slice0.lean ====
section
/-! SUPPORT. The model's own tests. Expected results are the spec's: the words of the tables of
spec/30_encoding.md, and the vectors V1 to V139 of spec/95_test_vectors.md; each test names its source.
At the end, for each statement that has hypotheses, a state and operands that meet them all together. -/

namespace Sys2Proof.Tests

open Sys2Proof.Machine

/-! ## Helpers -/

/-- A state in the spec's notation (phase, expCount, addr, acc, payLen, recType), nothing else set. -/
def mk (p : Phase) (n : BitVec 8) (a c : BitVec 16) (l : BitVec 8) (r : RecType) : State :=
  { State.reset with phase := p, expCount := n, addr := a, acc := c, payLen := l, recType := r }

/-- The same with a buffer. -/
def withBuf (m : Memory) (s : State) : State := { s with buf := m }

/-- A value of the next state, if there is one. -/
def after (o : Host.Outcome State Fault Refusal) {α : Type} (f : State → α) : Option α :=
  match o with
  | .next t => some (f t)
  | .fault _ => none
  | .refused _ => none

/-- The registers in the spec's notation: (phase, expCount, addr, acc, payLen, recType). -/
structure Regs where
  phase : Phase
  expCount : BitVec 8
  addr : BitVec 16
  acc : BitVec 16
  payLen : BitVec 8
  recType : RecType
deriving DecidableEq, Repr

/-- The registers of a state. -/
def regs (s : State) : Regs :=
  ⟨s.phase, s.expCount, s.addr, s.acc, s.payLen, s.recType⟩

/-- The refusal, if there is one. -/
def refusal (o : Host.Outcome State Fault Refusal) : Option Refusal :=
  match o with
  | .next _ => none
  | .fault _ => none
  | .refused r => some r

/-! ## WellFormed: an ill-formed term for each check -/

/-- R73: 101 characters do not fit the lanes; 100 do. -/
theorem test_wf_chunk : (Instr.feed (List.replicate 101 0x30#8)).wf = false ∧
    (Instr.feed (List.replicate 100 0x30#8)).wf = true ∧
    (Instr.feedErr (List.replicate 101 0x30#8)).wf = false := by decide

/-- R62: a character of a record that is no hex digit. -/
theorem test_wf_record_hex : (Instr.recEof ⟨0x30#8, 0x67#8⟩ ⟨0x30#8, 0x30#8⟩ ⟨0x30#8, 0x30#8⟩ ⟨0x30#8,
    0x30#8⟩).wf = false ∧
    (Instr.recData ⟨0x30#8, 0x31#8⟩ ⟨0x30#8, 0x30#8⟩ ⟨0x30#8, 0x30#8⟩ [0x34#8, 0x67#8] ⟨0x42#8,
        0x45#8⟩).wf = false := by decide

/-- R61: the payload field has two characters for each byte of the count. -/
theorem test_wf_record_length : (Instr.recData ⟨0x30#8, 0x31#8⟩ ⟨0x30#8, 0x30#8⟩ ⟨0x30#8, 0x30#8⟩
    [0x34#8, 0x31#8, 0x34#8] ⟨0x42#8, 0x45#8⟩).wf = false ∧
    (Instr.recData ⟨0x30#8, 0x31#8⟩ ⟨0x30#8, 0x30#8⟩ ⟨0x30#8, 0x30#8⟩ [0x34#8, 0x31#8] ⟨0x42#8,
        0x45#8⟩).wf = true := by decide

/-- R78: a Data record holds at most 50 bytes; an End-of-File record's count is not bounded. -/
theorem test_wf_record_bound : (Instr.recData ⟨0x33#8, 0x33#8⟩ ⟨0x30#8, 0x30#8⟩ ⟨0x30#8, 0x30#8⟩
    (List.replicate 102 0x30#8) ⟨0x30#8, 0x30#8⟩).wf = false ∧
    (Instr.recData ⟨0x33#8, 0x32#8⟩ ⟨0x30#8, 0x30#8⟩ ⟨0x30#8, 0x30#8⟩ (List.replicate 100 0x30#8)
        ⟨0x30#8, 0x30#8⟩).wf = true ∧
    (Instr.recEof ⟨0x33#8, 0x33#8⟩ ⟨0x30#8, 0x30#8⟩ ⟨0x30#8, 0x30#8⟩ ⟨0x43#8, 0x43#8⟩).wf = true := by
        decide

/-! ## Decoding, words written out from the tables -/

/-- R72: cmd_op 000 with cmd_len 2 and the lanes '1', '0'; lanes beyond cmd_len are ignored. -/
theorem test_decode_feed : decode (.op 0b000#3 2#16 [0x31#8, 0x30#8, 0x46#8]) =
    .instr (.feed [0x31#8, 0x30#8]) := by decide

/-- R72, R79: the other operation codes. -/
theorem test_decode_ops : decode (.op 0b001#3 0#16 []) = .instr .isReady ∧
    decode (.op 0b010#3 0#16 []) = .instr .getRecord ∧
    decode (.op 0b011#3 0#16 []) = .instr .getError ∧
    decode (.op 0b100#3 0#16 []) = .instr .getType ∧
    decode (.op 0b101#3 0#16 []) = .instr .reset ∧
    decode (.op 0b110#3 0#16 []) = .instr .reserved6 ∧
    decode (.op 0b111#3 0#16 []) = .instr .reserved7 := by decide

/-- R74, R20: phase code in bits 5:3, cmd_op 000 in bits 2:0. -/
theorem test_decode_dispatch : decode (.feed 0b000000#6 1#16 [0x3A#8]) = .instr (.feedStart [0x3A#8]) ∧
    decode (.feed 0b001000#6 0#16 []) = .instr (.feedCount []) ∧
    decode (.feed 0b010000#6 0#16 []) = .instr (.feedAddr []) ∧
    decode (.feed 0b011000#6 0#16 []) = .instr (.feedType []) ∧
    decode (.feed 0b100000#6 0#16 []) = .instr (.feedData []) ∧
    decode (.feed 0b101000#6 0#16 []) = .instr (.feedCsum []) ∧
    decode (.feed 0b110000#6 0#16 []) = .instr (.feedErr []) ∧
    decode (.feed 0b111000#6 0#16 []) = .rejected (.noDispatchRow 0b111000#6) ∧
    decode (.feed 0b000001#6 0#16 []) = .rejected (.noDispatchRow 0b000001#6) := by decide

/-- R61, V127: the record ":0100000041BE"; V121: ":00000001FF". -/
theorem test_decode_records :
    decode (.record [0x3A#8, 0x30#8, 0x31#8, 0x30#8, 0x30#8, 0x30#8, 0x30#8, 0x30#8, 0x30#8, 0x34#8,
        0x31#8, 0x42#8, 0x45#8]) = .instr (.recData ⟨0x30#8, 0x31#8⟩ ⟨0x30#8, 0x30#8⟩ ⟨0x30#8, 0x30#8⟩
        [0x34#8, 0x31#8] ⟨0x42#8, 0x45#8⟩) ∧
    decode (.record [0x3A#8, 0x30#8, 0x30#8, 0x30#8, 0x30#8, 0x30#8, 0x30#8, 0x30#8, 0x31#8, 0x46#8,
        0x46#8]) = .instr (.recEof ⟨0x30#8, 0x30#8⟩ ⟨0x30#8, 0x30#8⟩ ⟨0x30#8, 0x30#8⟩ ⟨0x46#8, 0x46#8⟩)
        := by decide

/-- R75, R76, R61: no start delimiter (V138), type 02 (V136), a checksum that is missing or too long. -/
theorem test_decode_illegal_records :
    decode (.record [0x3B#8, 0x30#8, 0x30#8, 0x30#8, 0x30#8, 0x30#8, 0x30#8, 0x30#8, 0x31#8, 0x46#8,
        0x46#8]) = .rejected .noRecordHead ∧
    decode (.record [0x3A#8, 0x30#8, 0x32#8, 0x30#8, 0x30#8, 0x30#8, 0x30#8, 0x30#8, 0x32#8, 0x30#8,
        0x30#8, 0x30#8, 0x30#8, 0x46#8, 0x43#8]) = .rejected (.noRecordType 0x30#8 0x32#8) ∧
    decode (.record [0x3A#8, 0x30#8, 0x30#8, 0x30#8, 0x30#8, 0x30#8, 0x30#8, 0x30#8, 0x30#8, 0x46#8]) =
        .rejected .recordLength ∧
    decode (.record [0x3A#8, 0x30#8, 0x30#8, 0x30#8, 0x30#8, 0x30#8, 0x30#8, 0x30#8, 0x31#8, 0x46#8,
        0x46#8, 0x30#8]) = .rejected .recordLength := by decide

/-- R64: the start delimiter and the hex digits by their codes; the codes at the edges of the ranges
(V2) have no row. -/
theorem test_decode_chars :
    decode (.char 0x3A#8) = .instr .charStart ∧
    decode (.char 0x30#8) = .instr .charHex0 ∧
    decode (.char 0x31#8) = .instr .charHex1 ∧
    decode (.char 0x32#8) = .instr .charHex2 ∧
    decode (.char 0x33#8) = .instr .charHex3 ∧
    decode (.char 0x34#8) = .instr .charHex4 ∧
    decode (.char 0x35#8) = .instr .charHex5 ∧
    decode (.char 0x36#8) = .instr .charHex6 ∧
    decode (.char 0x37#8) = .instr .charHex7 ∧
    decode (.char 0x38#8) = .instr .charHex8 ∧
    decode (.char 0x39#8) = .instr .charHex9 ∧
    decode (.char 0x41#8) = .instr .charHexUpA ∧
    decode (.char 0x42#8) = .instr .charHexUpB ∧
    decode (.char 0x43#8) = .instr .charHexUpC ∧
    decode (.char 0x44#8) = .instr .charHexUpD ∧
    decode (.char 0x45#8) = .instr .charHexUpE ∧
    decode (.char 0x46#8) = .instr .charHexUpF ∧
    decode (.char 0x61#8) = .instr .charHexLoA ∧
    decode (.char 0x62#8) = .instr .charHexLoB ∧
    decode (.char 0x63#8) = .instr .charHexLoC ∧
    decode (.char 0x64#8) = .instr .charHexLoD ∧
    decode (.char 0x65#8) = .instr .charHexLoE ∧
    decode (.char 0x66#8) = .instr .charHexLoF ∧
    decode (.char 0x2F#8) = .rejected (.noCharRow 0x2F#8) ∧
    decode (.char 0x40#8) = .rejected (.noCharRow 0x40#8) ∧
    decode (.char 0x47#8) = .rejected (.noCharRow 0x47#8) ∧
    decode (.char 0x60#8) = .rejected (.noCharRow 0x60#8) ∧
    decode (.char 0x67#8) = .rejected (.noCharRow 0x67#8) ∧
    decode (.char 0x3B#8) = .rejected (.noCharRow 0x3B#8) := by decide

/-- spec/opcode_table.json: the rows by their own width, and 8-bit words (log entry 10). -/
theorem test_table_words : decodeTableWord 3 0x5 = some .reset ∧
    decodeTableWord 6 0x30 = some (.feedErr []) ∧ decodeTableWord 6 0x00 = some (.feedStart []) ∧
    decodeTableWord 8 0x00 = some (.feed []) ∧ decodeTableWord 8 0x28 = some (.feedCsum []) ∧
    decodeTableWord 8 0x30 = some .charHex0 ∧ decodeTableWord 8 0x66 = some .charHexLoF ∧
    (decodeTableWord 16 0x3030).isSome = true ∧ (decodeTableWord 16 0x3031).isSome = true ∧
    decodeTableWord 16 0x3032 = none ∧ decodeTableWord 8 0x67 = none := by decide

/-- V1, V5 to V9, V10 to V15, V2. -/
theorem test_decoder : decodeDigit 0x30#8 = some 0#4 ∧ decodeDigit 0x39#8 = some 9#4 ∧
    decodeDigit 0x41#8 = some 10#4 ∧ decodeDigit 0x61#8 = some 10#4 ∧ decodeDigit 0x46#8 = some 15#4 ∧
    decodeDigit 0x63#8 = some 12#4 ∧ decodeByte 0x31#8 0x30#8 = some 0x10#8 ∧
    decodeByte 0x30#8 0x31#8 = some 0x01#8 ∧ decodeByte 0x61#8 0x42#8 = some 0xAB#8 ∧
    isHexDigit 0x3A#8 = false ∧ isHexDigit 0x67#8 = false ∧ isHexDigit 0xFF#8 = false := by decide

/-! ## Instructions -/

/-- V20, V25. -/
theorem test_feed_start : after (exec (.feed [0x3A#8]) State.reset) regs =
      some ⟨.awaitByteCount, 0x00#8, 0x0000#16, 0x0000#16, 0#8, .invalid⟩ ∧
    after (exec (.feedStart [0x3A#8]) (mk .awaitStart 0x10#8 0x0100#16 0x0400#16 16#8 .data)) regs =
      some ⟨.awaitByteCount, 0x10#8, 0x0100#16, 0x0000#16, 16#8, .invalid⟩ ∧
    after (exec (.feed [0x3A#8]) State.reset) (·.rsp) = some (.request 2) := by decide

/-- V26: a wrong start character writes phase only. -/
theorem test_feed_start_fails :
    after (exec (.feedStart [0x0A#8]) (mk .awaitStart 0x10#8 0x0100#16 0x0400#16 16#8 .data)) regs =
      some ⟨.error, 0x10#8, 0x0100#16, 0x0400#16, 16#8, .data⟩ := by decide

/-- V34, V33. -/
theorem test_feed_count :
    after (exec (.feedCount [0x66#8, 0x46#8]) (mk .awaitByteCount 0#8 0#16 0#16 0#8 .invalid)) regs =
      some ⟨.awaitAddress, 0xFF#8, 0x0000#16, 0x00FF#16, 0#8, .invalid⟩ ∧
    after (exec (.feedCount [0x33#8, 0x33#8]) (mk .awaitByteCount 0#8 0#16 0#16 0#8 .invalid)) (·.rsp) =
      some (.request 4) := by decide

/-- V35: a character that is no hex digit. -/
theorem test_feed_count_fails :
    after (exec (.feedCount [0x31#8, 0x67#8]) (mk .awaitByteCount 0#8 0#16 0#16 0#8 .invalid)) regs =
      some ⟨.error, 0x00#8, 0x0000#16, 0x0000#16, 0#8, .invalid⟩ := by decide

/-- V41, V43, V44. -/
theorem test_feed_addr :
    after (exec (.feedAddr [0x30#8, 0x31#8, 0x30#8, 0x30#8]) (mk .awaitAddress 2#8 0#16 2#16 0#8
        .invalid)) regs =
      some ⟨.awaitRecordType, 0x02#8, 0x0100#16, 0x0003#16, 0#8, .invalid⟩ ∧
    after (exec (.feedAddr [0x46#8, 0x46#8, 0x46#8, 0x46#8]) (mk .awaitAddress 2#8 0#16 2#16 0#8
        .invalid)) regs =
      some ⟨.awaitRecordType, 0x02#8, 0xFFFF#16, 0x0200#16, 0#8, .invalid⟩ ∧
    after (exec (.feedAddr [0x61#8, 0x62#8, 0x63#8, 0x64#8]) (mk .awaitAddress 2#8 0#16 2#16 0#8
        .invalid)) regs =
      some ⟨.awaitRecordType, 0x02#8, 0xABCD#16, 0x017A#16, 0#8, .invalid⟩ := by decide

/-- V52, V56: 50 is accepted; an End-of-File record is not bounded. -/
theorem test_feed_type :
    after (exec (.feedType [0x30#8, 0x30#8]) (mk .awaitRecordType 0x32#8 0x1234#16 0x78#16 0#8 .invalid))
      (fun t => (regs t, t.rsp)) =
      some (⟨.awaitData, 0x32#8, 0x1234#16, 0x0078#16, 0#8, .invalid⟩, .request 100) ∧
    after (exec (.feedType [0x30#8, 0x31#8]) (mk .awaitRecordType 0x33#8 0#16 0x33#16 0#8 .invalid)) regs =
      some ⟨.awaitChecksum, 0x33#8, 0x0000#16, 0x0034#16, 0#8, .endOfFile⟩ := by decide

/-- V53, V57. -/
theorem test_feed_type_fails :
    after (exec (.feedType [0x30#8, 0x30#8]) (mk .awaitRecordType 0x33#8 0#16 0x33#16 0#8 .invalid)) regs =
      some ⟨.error, 0x33#8, 0x0000#16, 0x0033#16, 0#8, .invalid⟩ ∧
    after (exec (.feedType [0x30#8, 0x32#8]) (mk .awaitRecordType 2#8 0#16 2#16 0#8 .invalid)) regs =
      some ⟨.error, 0x02#8, 0x0000#16, 0x0002#16, 0#8, .invalid⟩ := by decide

/-- V60. -/
theorem test_feed_data :
    after (exec (.feedData [0x30#8, 0x32#8, 0x33#8, 0x33#8, 0x37#8, 0x41#8]) (mk .awaitData 3#8 0x30#16
        0x33#16 0#8 .invalid))
      (fun t => (regs t, t.buf)) =
      some (⟨.awaitChecksum, 0x03#8, 0x0030#16, 0x00E2#16, 3#8, .data⟩,
        [(0, 0x02#8), (1, 0x33#8), (2, 0x7A#8)]) := by decide

/-- V65: a bad last character leaves the buffer untouched. -/
theorem test_feed_data_fails :
    after (exec (.feedData [0x30#8, 0x32#8, 0x33#8, 0x33#8, 0x37#8, 0x47#8])
      (withBuf [(0, 0xAA#8), (1, 0xBB#8), (2, 0xCC#8)] (mk .awaitData 3#8 0x30#16 0x33#16 0#8 .invalid)))
      (fun t => (regs t, t.buf)) =
      some (⟨.error, 0x03#8, 0x0030#16, 0x0033#16, 0#8, .invalid⟩,
        [(0, 0xAA#8), (1, 0xBB#8), (2, 0xCC#8)]) := by decide

/-- V80, V93: the high bits of the sum are not tested. -/
theorem test_feed_csum :
    after (exec (.feedCsum [0x34#8, 0x30#8]) (mk .awaitChecksum 0x10#8 0x100#16 0x3C0#16 16#8 .data)) regs =
      some ⟨.awaitStart, 0x10#8, 0x0100#16, 0x0400#16, 16#8, .data⟩ ∧
    after (exec (.feedCsum [0x30#8, 0x32#8]) (mk .awaitChecksum 0x32#8 0xFFFF#16 0x33FE#16 50#8 .data))
        regs =
      some ⟨.awaitStart, 0x32#8, 0xFFFF#16, 0x3400#16, 50#8, .data⟩ := by decide

/-- V81: one off; acc is not written. -/
theorem test_feed_csum_fails :
    after (exec (.feedCsum [0x34#8, 0x31#8]) (mk .awaitChecksum 0x10#8 0x100#16 0x3C0#16 16#8 .data)) regs =
      some ⟨.error, 0x10#8, 0x0100#16, 0x03C0#16, 16#8, .data⟩ := by decide

/-- V100, V103: any chunk in Error is a no-op that returns 0. -/
theorem test_feed_err :
    after (exec (.feedErr (List.replicate 200 0x30#8)) (mk .error 2#8 0xABCD#16 0x327#16 2#8 .data))
      (fun t => (regs t, t.rsp)) =
      some (⟨.error, 0x02#8, 0xABCD#16, 0x0327#16, 2#8, .data⟩, .request 0) ∧
    after (exec (.feed [0x3A#8]) (mk .error 2#8 0xABCD#16 0x327#16 2#8 .data)) (·.rsp) =
      some (.request 0) := by decide

/-- R71: a dispatch row in another phase than its own (log entry 7). -/
theorem test_dispatch_mismatch :
    refusal (exec (.feedStart [0x3A#8]) (mk .awaitChecksum 0#8 0#16 0#16 0#8 .data)) =
      some (.notDispatched .awaitStart) := by decide

/-- V111, V114, V116 (IS_READY, GET_ERROR, GET_TYPE). -/
theorem test_flags :
    after (exec .isReady (mk .awaitStart 0x10#8 0x100#16 0x400#16 16#8 .data)) (·.rsp) = some (.flag true) ∧
    after (exec .isReady (mk .awaitChecksum 3#8 0x30#16 0xE2#16 3#8 .data)) (·.rsp) = some (.flag false) ∧
    after (exec .getError (mk .error 2#8 0xABCD#16 0x327#16 2#8 .data)) (·.rsp) = some (.flag true) ∧
    after (exec .getError State.reset) (·.rsp) = some (.flag false) ∧
    after (exec .getType (mk .error 2#8 0xABCD#16 0x327#16 2#8 .data)) (·.rsp) = some (.recType .data) := by
  decide

/-- V116, V112: the length is gated by the type. -/
theorem test_get_record :
    after (exec .getRecord (withBuf [(0, 0xBE#8), (1, 0xEF#8)]
      (mk .error 2#8 0xABCD#16 0x327#16 2#8 .data))) (·.rsp) =
      some (.record ⟨.data, 0xABCD#16, 2#8, [0xBE#8, 0xEF#8]⟩) ∧
    after (exec .getRecord (mk .awaitStart 0#8 0#16 0x100#16 16#8 .endOfFile)) (·.rsp) =
      some (.record ⟨.endOfFile, 0#16, 0#8, []⟩) := by decide

/-- V75, V76. -/
theorem test_reset :
    after (exec .reset (mk .awaitChecksum 3#8 0x30#16 0xE2#16 3#8 .data)) regs =
      some ⟨.awaitStart, 0x03#8, 0x0030#16, 0x0000#16, 3#8, .invalid⟩ ∧
    after (exec .reset (mk .error 2#8 0xABCD#16 0x327#16 2#8 .data)) regs =
      some ⟨.awaitStart, 0x02#8, 0xABCD#16, 0x0000#16, 2#8, .invalid⟩ := by decide

/-- R79: a reserved code changes no register. -/
theorem test_reserved :
    after (exec .reserved6 (mk .awaitData 3#8 0x30#16 0x33#16 0#8 .invalid)) regs =
      some ⟨.awaitData, 3#8, 0x30#16, 0x33#16, 0#8, .invalid⟩ ∧
    after (exec .reserved7 State.reset) (·.rsp) = some .none := by decide

/-- V124: ":0300300002337A1E". -/
theorem test_rec_data :
    after (exec (.recData ⟨0x30#8, 0x33#8⟩ ⟨0x30#8, 0x30#8⟩ ⟨0x33#8, 0x30#8⟩ [0x30#8, 0x32#8, 0x33#8,
        0x33#8, 0x37#8, 0x41#8] ⟨0x31#8, 0x45#8⟩) State.reset) (fun t => (regs t, t.buf, ready t)) =
      some (⟨.awaitStart, 0x03#8, 0x0030#16, 0x0100#16, 3#8, .data⟩,
        [(0, 0x02#8), (1, 0x33#8), (2, 0x7A#8)], true) := by decide

/-- V123, V131's kind: the empty Data record, and a checksum that is one off. -/
theorem test_rec_data_edges :
    after (exec (.recData ⟨0x30#8, 0x30#8⟩ ⟨0x30#8, 0x30#8⟩ ⟨0x30#8, 0x30#8⟩ [] ⟨0x30#8, 0x30#8⟩)
        State.reset) (fun t => (regs t, ready t)) =
      some (⟨.awaitStart, 0#8, 0#16, 0#16, 0#8, .data⟩, true) ∧
    after (exec (.recData ⟨0x30#8, 0x33#8⟩ ⟨0x30#8, 0x30#8⟩ ⟨0x33#8, 0x30#8⟩ [0x30#8, 0x32#8, 0x33#8,
        0x33#8, 0x37#8, 0x41#8] ⟨0x31#8, 0x46#8⟩) State.reset) regs =
      some ⟨.error, 0x03#8, 0x0030#16, 0x00E2#16, 3#8, .data⟩ := by decide

/-- V129, V122: ":33000001CC" and ":00123401B9". -/
theorem test_rec_eof :
    after (exec (.recEof ⟨0x33#8, 0x33#8⟩ ⟨0x30#8, 0x30#8⟩ ⟨0x30#8, 0x30#8⟩ ⟨0x43#8, 0x43#8⟩)
        State.reset) (fun t => (regs t, ready t)) =
      some (⟨.awaitStart, 0x33#8, 0#16, 0x0100#16, 0#8, .endOfFile⟩, true) ∧
    after (exec (.recEof ⟨0x30#8, 0x30#8⟩ ⟨0x31#8, 0x32#8⟩ ⟨0x33#8, 0x34#8⟩ ⟨0x42#8, 0x39#8⟩)
        State.reset) (fun t => (t.addr, ready t)) =
      some (0x1234#16, true) := by decide

/-- V20 as CHAR.START; R175: in mid-record it is a length error. -/
theorem test_char_start :
    after (exec .charStart State.reset) (·.phase) = some .awaitByteCount ∧
    after (exec .charStart (mk .awaitData 3#8 0#16 0#16 0#8 .invalid)) (·.phase) = some .error := by decide

/-- V9, V7. -/
theorem test_char_hex :
    after (exec .charHex7 State.reset) (·.rsp) = some (.digit (some 7#4)) ∧
    after (exec .charHexLoC State.reset) (·.rsp) = some (.digit (some 12#4)) ∧
    after (exec .charHexUpA State.reset) (·.rsp) = some (.digit (some 10#4)) := by decide

/-! ## Steps -/

/-- V78: rst wins over the command of its cycle. -/
theorem test_step_rst :
    after (step { mk .error 2#8 0xABCD#16 0x327#16 2#8 .data with
      input := [⟨true, true, .op 0b000#3 1#16 [0x3A#8]⟩] }) regs = some (regs State.reset) := by decide

/-- R73: a FEED on the port; a cycle without a command; no cycle at all. -/
theorem test_step_port :
    after (step { State.reset with input := [⟨false, true, .op 0b000#3 1#16 [0x3A#8]⟩] }) (·.phase) =
      some .awaitByteCount ∧
    after (step { State.reset with input := [⟨false, false, .op 0b000#3 1#16 [0x3A#8]⟩] }) (·.phase) =
      some .awaitStart ∧
    after (step State.reset) regs = some (regs State.reset) := by decide

/-- V136: an illegal record is fed, and its type field fails. -/
theorem test_step_illegal_record :
    after (step { State.reset with input := [⟨false, true, .record [0x3A#8, 0x30#8, 0x32#8, 0x30#8,
        0x30#8, 0x30#8, 0x30#8, 0x30#8, 0x32#8, 0x30#8, 0x30#8, 0x30#8, 0x30#8, 0x46#8, 0x43#8]⟩] }) (fun
        t => (t.phase, t.expCount)) =
      some (.error, 0x02#8) := by decide

/-- The table's words run as the first instruction after reset (log entry 10). -/
theorem test_fetch_words :
    after (step (State.reset.withFetchWord 8 0x18)) (·.phase) = some .error ∧
    after (step (State.reset.withFetchWord 8 0x20)) (·.phase) = some .awaitChecksum ∧
    after (step (State.reset.withFetchWord 8 0x66)) (·.rsp) = some (.digit (some 15#4)) ∧
    after (step (State.reset.withFetchWord 16 0x3031)) (·.phase) = some .error := by decide

/-- R73: the outputs after GET_RECORD: the payload lanes stop at the length (R171). -/
theorem test_ports :
    after (exec .getRecord (withBuf [(0, 0xBE#8), (1, 0xEF#8)]
      (mk .awaitStart 2#8 0xABCD#16 0x400#16 2#8 .data)))
      (fun t => (rspLen t, rspPayload t 1, rspPayload t 2, rspReq t, readyO t, typeO t)) =
      some (some 2#8, some 0xEF#8, none, none, 1#1, 1#2) := by decide

/-! ## Witnesses: the hypotheses of each statement, met together, with a value for each clause -/

theorem wit_DecodeEncodeRoundTrip : (Instr.recData ⟨0x30#8, 0x31#8⟩ ⟨0x30#8, 0x30#8⟩ ⟨0x30#8, 0x30#8⟩
    [0x34#8, 0x31#8] ⟨0x42#8, 0x45#8⟩).wf = true ∧
    (Instr.feed (List.replicate 100 0x3A#8)).wf = true ∧ Instr.charHexLoF.wf = true := by decide

theorem wit_ChunkCrossesThePort : (List.replicate 65535 0x30#8).length < 2 ^ 16 ∧
    (List.replicate 100 0x30#8).length ≤ 100 :=
  ⟨by rw [List.length_replicate]; decide, by rw [List.length_replicate]⟩

theorem wit_CharacterRowsAreExact : isHexDigit 0x30#8 = true ∧ isHexDigit 0x66#8 = true := by decide

theorem wit_DispatchRowsAreExact : (¬ ∃ i, decode (.feed 0b111000#6 0#16 []) = .instr i) ∧
    { State.reset with input := [⟨false, true, .feed 0b111000#6 0#16 []⟩] }.input =
      ⟨false, true, .feed 0b111000#6 0#16 []⟩ :: [] :=
  ⟨fun ⟨_, h⟩ => (by cases h), rfl⟩

theorem wit_UnknownRecordTypeIsNoRecord : ([0x3A#8, 0x30#8, 0x32#8, 0x30#8, 0x30#8, 0x30#8, 0x30#8] :
    List Char8).length = 7 ∧
    ¬ ((0x30#8 : Char8) = 0x30#8 ∧ (0x32#8 : Char8) = 0x30#8) ∧
    ¬ ((0x30#8 : Char8) = 0x30#8 ∧ (0x32#8 : Char8) = 0x31#8) ∧
    { State.reset with input := [⟨false, true, .record ([0x3A#8, 0x30#8, 0x32#8, 0x30#8, 0x30#8, 0x30#8,
        0x30#8] ++ [0x30#8, 0x32#8] ++ [])⟩] }.input =
      ⟨false, true, .record ([0x3A#8, 0x30#8, 0x32#8, 0x30#8, 0x30#8, 0x30#8, 0x30#8] ++ [0x30#8, 0x32#8]
          ++ [])⟩ :: [] := by decide

theorem wit_StepRunsTheDecodedInstruction :
    { State.reset with input := [⟨false, true, .op 0b101#3 0#16 []⟩] }.input =
      ⟨false, true, .op 0b101#3 0#16 []⟩ :: [] ∧
    decode (.op 0b101#3 0#16 []) = .instr .reset := by decide

theorem wit_HardwareResetWinsOverACommand :
    { State.reset with input := [⟨true, true, .op 0b101#3 0#16 []⟩] }.input =
      ⟨true, true, .op 0b101#3 0#16 []⟩ :: [] := by decide

theorem wit_IdleCyclesChangeNothing :
    { State.reset with input := [⟨false, false, .char 0#8⟩, ⟨false, true, .char 0#8⟩] }.input =
      [CodeWord.char 0#8].map (fun w => (⟨false, false, w⟩ : PortCycle)) ++ [⟨false, true, .char 0#8⟩] := by
  decide

theorem wit_DigitValues : (0x30 ≤ (0x39#8 : Char8).toNat ∧ (0x39#8 : Char8).toNat ≤ 0x39) ∧
    (0x41 ≤ (0x46#8 : Char8).toNat ∧ (0x46#8 : Char8).toNat ≤ 0x46) ∧
    (0x61 ≤ (0x66#8 : Char8).toNat ∧ (0x66#8 : Char8).toNat ≤ 0x66) := by
  decide

theorem wit_ByteIsHighNibbleFirst : decodeDigit 0x37#8 = some 7#4 ∧ decodeDigit 0x45#8 = some 14#4 := by
  decide

theorem wit_FieldBytesAreItsPairsInOrder : decodeBytes [0x30#8, 0x32#8, 0x33#8, 0x33#8, 0x37#8, 0x41#8] =
    some [0x02#8, 0x33#8, 0x7A#8] ∧
    2 < [0x02#8, 0x33#8, 0x7A#8].length := by decide

theorem wit_FeedInAwaitStart : State.reset.phase = .awaitStart ∧ (0x3B#8 : Char8) ≠ 0x3A#8 ∧
    ([] : List Char8).length ≠ 1 ∧ [0x3A#8, 0x31#8].length ≠ 1 := by decide

theorem wit_FeedInAwaitByteCount :
    (mk .awaitByteCount 0#8 0#16 0#16 0#8 .invalid).phase = .awaitByteCount ∧
    decodeByte 0x46#8 0x66#8 = some 0xFF#8 ∧
    ([0x31#8, 0x67#8].length = 2 ∧ [0x31#8, 0x67#8].all isHexDigit = false) ∧
    [0x31#8].length ≠ 2 := by decide

theorem wit_FeedInAwaitAddress :
    (mk .awaitAddress 2#8 0#16 2#16 0#8 .invalid).phase = .awaitAddress ∧
    (decodeByte 0x61#8 0x62#8 = some 0xAB#8 ∧ decodeByte 0x63#8 0x64#8 = some 0xCD#8) ∧
    ([0x30#8, 0x30#8, 0x47#8, 0x30#8].length = 4 ∧ [0x30#8, 0x30#8, 0x47#8, 0x30#8].all isHexDigit =
        false) ∧ [0x30#8, 0x31#8, 0x30#8].length ≠ 4 := by decide

theorem wit_FeedInAwaitRecordType :
    (mk .awaitRecordType 50#8 0#16 0#16 0#8 .invalid).phase = .awaitRecordType ∧
    (mk .awaitRecordType 50#8 0#16 0#16 0#8 .invalid).expCount.toNat ≤ 50 ∧
    (mk .awaitRecordType 51#8 0#16 0#16 0#8 .invalid).phase = .awaitRecordType ∧
    50 < (mk .awaitRecordType 51#8 0#16 0#16 0#8 .invalid).expCount.toNat ∧
    ([0x30#8, 0x32#8].length = 2 ∧ [0x30#8, 0x32#8] ≠ [0x30#8, 0x30#8] ∧
      [0x30#8, 0x32#8] ≠ [0x30#8, 0x31#8]) ∧ [0x30#8].length ≠ 2 := by decide

theorem wit_FeedInAwaitData :
    (mk .awaitData 3#8 0x30#16 0x33#16 0#8 .invalid).phase = .awaitData ∧
    (mk .awaitData 3#8 0x30#16 0x33#16 0#8 .invalid).expCount.toNat ≤ 50 ∧
    ([0x30#8, 0x32#8, 0x33#8, 0x33#8, 0x37#8, 0x41#8].length = 2 * (mk .awaitData 3#8 0x30#16 0x33#16 0#8
        .invalid).expCount.toNat ∧
      decodeBytes [0x30#8, 0x32#8, 0x33#8, 0x33#8, 0x37#8, 0x41#8] = some [0x02#8, 0x33#8, 0x7A#8]) ∧
    ([0x30#8, 0x32#8, 0x33#8, 0x33#8, 0x37#8, 0x47#8].length = 2 * (mk .awaitData 3#8 0x30#16 0x33#16 0#8
        .invalid).expCount.toNat ∧
      [0x30#8, 0x32#8, 0x33#8, 0x33#8, 0x37#8, 0x47#8].all isHexDigit = false) ∧
    ([] : List Char8).length ≠ 2 * (mk .awaitData 3#8 0x30#16 0x33#16 0#8 .invalid).expCount.toNat := by
  decide

/-- The same at the ends of the count's range: no byte, and 50 bytes. -/
theorem wit_FeedInAwaitData_ends :
    (([] : List Char8).length = 2 * (mk .awaitData 0#8 0#16 0#16 0#8 .invalid).expCount.toNat ∧
      decodeBytes [] = some []) ∧
    ((List.replicate 100 0x46#8).length = 2 * (mk .awaitData 50#8 0#16 0#16 0#8 .invalid).expCount.toNat ∧
      decodeBytes (List.replicate 100 0x46#8) = some (List.replicate 50 0xFF#8)) := by decide

theorem wit_FeedInAwaitChecksum :
    (mk .awaitChecksum 0#8 0#16 1#16 0#8 .endOfFile).phase = .awaitChecksum ∧
    decodeByte 0x46#8 0x46#8 = some 0xFF#8 ∧
    ((mk .awaitChecksum 0#8 0#16 1#16 0#8 .endOfFile).acc.toNat + (0xFF#8 : Byte).toNat) % 256 = 0 ∧
    ((mk .awaitChecksum 0#8 0#16 1#16 0#8 .endOfFile).acc.toNat + (0xFE#8 : Byte).toNat) % 256 ≠ 0 ∧
    (mk .awaitChecksum 0#8 0#16 1#16 0#8 .endOfFile).recType ≠ .invalid ∧
    ([0x7A#8, 0x7A#8].length = 2 ∧ [0x7A#8, 0x7A#8].all isHexDigit = false) ∧
    ([] : List Char8).length ≠ 2 := by decide

theorem wit_FeedInErrorIsInert : (mk .error 2#8 0xABCD#16 0x327#16 2#8 .data).phase = .error := by decide

theorem wit_WrongLengthFails : State.reset.phase ≠ .error ∧ ([] : List Char8).length ≠ expect State.reset ∧
    (mk .awaitData 0#8 0#16 0#16 0#8 .invalid).phase ≠ .error ∧
    [0x30#8, 0x30#8].length ≠ expect (mk .awaitData 0#8 0#16 0#16 0#8 .invalid) := by decide

theorem wit_WrongLengthFails_anyCause :
    ∃ t, State.reset.phase ≠ .error ∧ exec (.feed [0x30#8]) State.reset = .next t ∧ t.phase = .error :=
  ⟨_, by decide, rfl, rfl⟩

theorem wit_NonHexCharacterFails :
    (mk .awaitChecksum 1#8 0#16 0x42#16 1#8 .data).phase = .awaitChecksum ∧
    [0x42#8, 0x7A#8].length = expect (mk .awaitChecksum 1#8 0#16 0x42#16 1#8 .data) ∧
    (0x7A#8 ∈ [0x42#8, 0x7A#8] ∧ isHexDigit 0x7A#8 = false) := by decide

theorem wit_SuccessfulFeedReturnsNextRequest :
    ∃ t, exec (.feed [0x3A#8]) State.reset = .next t ∧ t.phase ≠ .error := ⟨_, rfl, by decide⟩

theorem wit_FailingFeedWritesPhaseOnly :
    ∃ t, State.reset.phase ≠ .error ∧ exec (.feed [0x3A#8, 0x31#8]) State.reset = .next t ∧
      t.phase = .error := ⟨_, by decide, rfl, rfl⟩

theorem wit_DispatchRowsAreFeedInTheirPhase :
    (Instr.feedData [], Phase.awaitData) ∈ [(Instr.feedStart [], Phase.awaitStart),
      (.feedCount [], .awaitByteCount), (.feedAddr [], .awaitAddress), (.feedType [], .awaitRecordType),
      (.feedData [], .awaitData), (.feedCsum [], .awaitChecksum), (.feedErr [], .error)] ∧
    (mk .awaitData 0#8 0#16 0#16 0#8 .invalid).phase = .awaitData ∧ State.reset.phase ≠ .awaitData := by
  decide

theorem wit_StartDelimiterRow : State.reset.phase = .awaitStart ∧
    (mk .error 0#8 0#16 0#16 0#8 .invalid).phase = .error ∧
    (mk .awaitData 0#8 0#16 0#16 0#8 .invalid).phase ≠ .awaitStart ∧
    (mk .awaitData 0#8 0#16 0#16 0#8 .invalid).phase ≠ .error := by decide

theorem wit_EmptyDataFieldIsFedAsEmptyChunk :
    (mk .awaitRecordType 0#8 0#16 0#16 0#8 .invalid).phase = .awaitRecordType ∧
    (mk .awaitRecordType 0#8 0#16 0#16 0#8 .invalid).expCount = 0#8 := by decide

/-- A Data record of two bytes, ready, and the same with the largest length. -/
theorem wit_GetRecordResult :
    (mk .awaitStart 2#8 0xABCD#16 0x400#16 2#8 .data).payLen.toNat ≤ 50 ∧
    (mk .awaitStart 50#8 0#16 0#16 50#8 .data).payLen.toNat ≤ 50 ∧
    (mk .awaitStart 50#8 0#16 0#16 50#8 .data).recType = .data ∧
    (mk .awaitStart 0#8 0#16 0x100#16 16#8 .endOfFile).recType ≠ .data := by decide

theorem wit_PayloadLanesStopAtTheLength :
    ∃ t, exec .getRecord (mk .awaitStart 2#8 0xABCD#16 0x400#16 2#8 .data) = .next t := ⟨_, rfl⟩

theorem wit_QueriesChangeNothing : (∃ t, exec .isReady State.reset = .next t) ∧
    (∃ t, exec .getError State.reset = .next t) ∧
    (∃ t, exec .getRecord (mk .awaitStart 2#8 0#16 0x400#16 2#8 .data) = .next t) ∧
    (∃ t, exec .getType State.reset = .next t) := ⟨⟨_, rfl⟩, ⟨_, rfl⟩, ⟨_, rfl⟩, ⟨_, rfl⟩⟩

theorem wit_ResetIsIdempotentAndReopens :
    ∃ t, exec .reset (mk .error 2#8 0xABCD#16 0x327#16 2#8 .data) = .next t := ⟨_, rfl⟩

theorem wit_ReservedCodesAreIgnored : Instr.reserved7 = .reserved6 ∨ Instr.reserved7 = .reserved7 := by
  decide

theorem wit_CursorFollowsTheTransitionRelation : isRecordRow (.feed [0x3A#8]) = false ∧
    ∃ t, exec (.feed [0x3A#8]) State.reset = .next t ∧ t.phase ≠ State.reset.phase :=
  ⟨rfl, _, rfl, by decide⟩

theorem wit_RegistersChangeOnlyWhereTheTableSays : isRecordRow (.feedCount [0x31#8, 0x30#8]) = false ∧
    ∃ t, exec (.feedCount [0x31#8, 0x30#8]) (mk .awaitByteCount 0#8 0#16 0#16 0#8 .invalid) = .next t ∧
      t.expCount ≠ 0#8 := ⟨rfl, _, rfl, by decide⟩

theorem wit_ReadyIsSetOnlyByTheChecksum : isRecordRow (.feed [0x46#8, 0x46#8]) = false ∧
    ∃ t, exec (.feed [0x46#8, 0x46#8]) (mk .awaitChecksum 0#8 0#16 1#16 0#8 .endOfFile) = .next t ∧
      ready (mk .awaitChecksum 0#8 0#16 1#16 0#8 .endOfFile) = false ∧ ready t = true ∧
      t.phase = .awaitStart := ⟨rfl, _, rfl, rfl, rfl, rfl⟩

theorem wit_ErrorPhaseIsTerminal : (mk .error 0#8 0#16 0#16 0#8 .invalid).phase = .error ∧
    (∃ t, step { mk .error 0#8 0#16 0#16 0#8 .invalid with
      input := [⟨false, true, .op 0b000#3 1#16 [0x3A#8]⟩] } = .next t) ∧
    (∃ t, step { mk .error 0#8 0#16 0#16 0#8 .invalid with
      input := [⟨false, true, .op 0b101#3 0#16 []⟩] } = .next t) := ⟨rfl, ⟨_, rfl⟩, ⟨_, rfl⟩⟩

/-- A ready Data record of two bytes meets the invariant. -/
theorem readyRecord_inv : ParserInv (withBuf [(0, 0xBE#8), (1, 0xEF#8)]
    (mk .awaitStart 2#8 0xABCD#16 0x400#16 2#8 .data)) where
  bufWf := by decide
  payLenBound := by decide
  countBound := by decide
  payloadWritten := fun _ k hk => by
    have h : k < 2 := hk
    match k, h with
    | 0, _ => exact ⟨_, rfl⟩
    | 1, _ => exact ⟨_, rfl⟩
  midFlight := by decide
  checksumTyped := by decide
  readySum := by decide

/-- A data phase with the largest count meets the invariant. -/
theorem dataPhase_inv : ParserInv (mk .awaitData 50#8 0#16 0x32#16 0#8 .invalid) where
  bufWf := by decide
  payLenBound := by decide
  countBound := by decide
  payloadWritten := nofun
  midFlight := by decide
  checksumTyped := by decide
  readySum := by decide

/-- The invariant does not depend on the host's script. -/
theorem dataPhase_script_inv (l : List PortCycle) :
    ParserInv { mk .awaitData 50#8 0#16 0x32#16 0#8 .invalid with input := l } where
  bufWf := dataPhase_inv.bufWf
  payLenBound := dataPhase_inv.payLenBound
  countBound := dataPhase_inv.countBound
  payloadWritten := dataPhase_inv.payloadWritten
  midFlight := dataPhase_inv.midFlight
  checksumTyped := dataPhase_inv.checksumTyped
  readySum := dataPhase_inv.readySum

theorem wit_StepKeepsTheInvariant : ∃ s t, ParserInv s ∧ step s = .next t :=
  ⟨{ mk .awaitData 50#8 0#16 0x32#16 0#8 .invalid with
      input := [⟨false, true, .op 0b000#3 1#16 [0x3A#8]⟩] }, _, dataPhase_script_inv _, rfl⟩

theorem wit_NoStepFaults : ∃ s, ParserInv s ∧ s.input ≠ [] :=
  ⟨{ mk .awaitData 50#8 0#16 0x32#16 0#8 .invalid with
      input := [⟨false, true, .op 0b010#3 0#16 []⟩] }, dataPhase_script_inv _, by decide⟩

theorem wit_EveryOperationCompletes :
    ParserInv (mk .awaitData 50#8 0#16 0x32#16 0#8 .invalid) ∧ Instr.getRecord.row.format ≠ .feed ∧
    (Instr.feed []).row.format ≠ .feed ∧ (Instr.recEof ⟨0x30#8, 0x30#8⟩ ⟨0x30#8, 0x30#8⟩ ⟨0x30#8, 0x30#8⟩
        ⟨0x46#8, 0x46#8⟩).row.format ≠ .feed :=
  ⟨dataPhase_inv, by decide, by decide, by decide⟩

theorem wit_OnlyTheLowAccumulatorBitsMatter :
    (0x1F01#16 : BitVec 16).setWidth 8 = (mk .awaitChecksum 0#8 0#16 1#16 0#8 .endOfFile).acc.setWidth 8 ∧
    ∃ t, exec (.feed [0x46#8, 0x46#8]) (mk .awaitChecksum 0#8 0#16 1#16 0#8 .endOfFile) = .next t :=
  ⟨by decide, _, rfl⟩

theorem wit_UnwrittenBytesAreNeverObserved : ∃ s t, ParserInv s ∧ s.recType = .data ∧
    exec .getRecord s = .next t := ⟨_, _, readyRecord_inv, rfl, rfl⟩

/-- V124: ":0300300002337A1E". -/
theorem wit_DataRecordIsAcceptedExactlyOnZeroSum : State.reset.phase = .awaitStart ∧
    decodeByte 0x30#8 0x33#8 = some 3#8 ∧ (3#8 : Byte).toNat ≤ 50 ∧ decodeByte 0x30#8 0x30#8 = some 0#8 ∧
    decodeByte 0x33#8 0x30#8 = some 0x30#8 ∧ decodeBytes [0x30#8, 0x32#8, 0x33#8, 0x33#8, 0x37#8, 0x41#8]
        = some [0x02#8, 0x33#8, 0x7A#8] ∧
    [0x02#8, 0x33#8, 0x7A#8].length = (3#8 : Byte).toNat ∧ decodeByte 0x31#8 0x45#8 = some 0x1E#8 ∧
    (3 + 0 + 0x30 + ([0x02#8, 0x33#8, 0x7A#8].map BitVec.toNat).sum + 0x1E) % 256 = 0 ∧
    (3 + 0 + 0x30 + ([0x02#8, 0x33#8, 0x7A#8].map BitVec.toNat).sum + 0x1F) % 256 ≠ 0 := by decide

/-- V129: ":33000001CC". -/
theorem wit_EofRecordIsAcceptedExactlyOnZeroSum : State.reset.phase = .awaitStart ∧
    decodeByte 0x33#8 0x33#8 = some 0x33#8 ∧ decodeByte 0x30#8 0x30#8 = some 0#8 ∧
    decodeByte 0x43#8 0x43#8 = some 0xCC#8 ∧ (0x33 + 0 + 0 + 1 + 0xCC) % 256 = 0 ∧
    (0x33 + 0 + 0 + 1 + 0xCD) % 256 ≠ 0 := by decide

theorem wit_AcceptedDataRecordIsReadBack : State.reset.phase = .awaitStart ∧
    decodeByte 0x30#8 0x33#8 = some 3#8 ∧ decodeByte 0x30#8 0x30#8 = some 0#8 ∧
    decodeByte 0x33#8 0x30#8 = some 0x30#8 ∧ decodeBytes [0x30#8, 0x32#8, 0x33#8, 0x33#8, 0x37#8, 0x41#8]
        = some [0x02#8, 0x33#8, 0x7A#8] ∧
    [0x02#8, 0x33#8, 0x7A#8].length = (3#8 : Byte).toNat ∧
    ∃ t, exec (.recData ⟨0x30#8, 0x33#8⟩ ⟨0x30#8, 0x30#8⟩ ⟨0x33#8, 0x30#8⟩ [0x30#8, 0x32#8, 0x33#8,
        0x33#8, 0x37#8, 0x41#8] ⟨0x31#8, 0x45#8⟩) State.reset = .next t ∧ ready t = true :=
  ⟨by decide, by decide, by decide, by decide, by decide, by decide, _, rfl, by decide⟩

theorem wit_RecordFeedingEndsReadyOrInError : isRecordRow (.recEof ⟨0x30#8, 0x30#8⟩ ⟨0x30#8, 0x30#8⟩
    ⟨0x30#8, 0x30#8⟩ ⟨0x46#8, 0x46#8⟩) = true ∧
    ∃ t, exec (.recEof ⟨0x30#8, 0x30#8⟩ ⟨0x30#8, 0x30#8⟩ ⟨0x30#8, 0x30#8⟩ ⟨0x46#8, 0x46#8⟩) State.reset =
        .next t := ⟨rfl, _, rfl⟩

theorem wit_RecordFedMidRecordFails : isRecordRow (.recEof ⟨0x30#8, 0x30#8⟩ ⟨0x30#8, 0x30#8⟩ ⟨0x30#8,
    0x30#8⟩ ⟨0x46#8, 0x46#8⟩) = true ∧
    (mk .awaitData 0#8 0#16 0#16 0#8 .invalid).phase ≠ .awaitStart ∧
    ∃ t, exec (.recEof ⟨0x30#8, 0x30#8⟩ ⟨0x30#8, 0x30#8⟩ ⟨0x30#8, 0x30#8⟩ ⟨0x46#8, 0x46#8⟩) (mk
        .awaitData 0#8 0#16 0#16 0#8 .invalid) = .next t :=
  ⟨rfl, by decide, _, rfl⟩

theorem wit_ResyncRecoversFromEveryState : decodeByte 0x30#8 0x30#8 = some 0#8 ∧
    decodeByte 0x46#8 0x46#8 = some 0xFF#8 ∧ (0 + 0 + 0 + 1 + 0xFF) % 256 = 0 := by decide

theorem wit_NextStartDelimiterHidesTheRecord :
    ready (mk .awaitStart 2#8 0xABCD#16 0x400#16 2#8 .data) = true ∧
    ∃ t, exec (.feed [0x3A#8]) (mk .awaitStart 2#8 0xABCD#16 0x400#16 2#8 .data) = .next t :=
  ⟨by decide, _, rfl⟩

theorem wit_ChunkBeyondTheLanesFailsOnLength : ParserInv (mk .awaitData 50#8 0#16 0x32#16 0#8 .invalid) ∧
    100 < (List.replicate 101 0x30#8).length ∧
    (mk .awaitData 50#8 0#16 0x32#16 0#8 .invalid).phase ≠ .error := ⟨dataPhase_inv, by decide, by decide⟩

end Sys2Proof.Tests
end

section
/-! The state right after hardware reset (spec/10_state.md section 6). -/

namespace Sys2Proof.Machine

/-- R29, the row of AwaitStart: the next FEED carries the start delimiter. -/
theorem expect_of_awaitStart {s : State} (h : s.phase = .awaitStart) : expect s = 1 := by
  simp [expect, h]

/-- R30: without a latched type no record is available. -/
theorem ready_eq_false_of_invalid {s : State} (h : s.recType = .invalid) : ready s = false :=
  Bool.eq_false_iff.mpr fun hr => ((ready_iff s).mp hr).2 h

/-- R31: the error flag is clear in every phase but Error. -/
theorem err_eq_false_of_phase_ne {s : State} (h : s.phase ≠ .error) : err s = false :=
  Bool.eq_false_iff.mpr fun he => h ((err_iff s).mp he)

@[simp] theorem reset_phase : State.reset.phase = .awaitStart := rfl
@[simp] theorem reset_recType : State.reset.recType = .invalid := rfl

/-- Settles O11: the registers are those `State.reset` writes, and the three outputs follow from its
phase and its type (R29, R30, R31). -/
theorem resetStateValues : Obligations.ResetStateValues := by
  have hExpect : expect State.reset = 1 := expect_of_awaitStart reset_phase
  have hReady : ready State.reset = false := ready_eq_false_of_invalid reset_recType
  have hErr : err State.reset = false := err_eq_false_of_phase_ne (by simp)
  exact ⟨reset_phase, reset_recType, rfl, rfl, rfl, rfl, hExpect, hReady, hErr⟩

end Sys2Proof.Machine
end

section
/-! The operation codes of the command word (spec/30_encoding.md section 3, R72 and R73). -/

namespace Sys2Proof

open Machine

/-- R73: a command word decodes by its `cmd_op`; `cmd_len` and the lanes give the chunk alone. -/
theorem decode_op_eq_instr {cmdOp : BitVec 3} {len : BitVec 16} {lanes : List Char8} {i : Instr}
    (h : decodeOp cmdOp (chunkOfLanes len.toNat lanes) = i) :
    decode (.op cmdOp len lanes) = .instr i := congrArg Decoded.instr h

section
variable (chunk : List Char8)

@[simp] theorem decodeOp_feed : decodeOp 0#3 chunk = .feed chunk := rfl
@[simp] theorem decodeOp_isReady : decodeOp 1#3 chunk = .isReady := rfl
@[simp] theorem decodeOp_getRecord : decodeOp 2#3 chunk = .getRecord := rfl
@[simp] theorem decodeOp_getError : decodeOp 3#3 chunk = .getError := rfl
@[simp] theorem decodeOp_getType : decodeOp 4#3 chunk = .getType := rfl
@[simp] theorem decodeOp_reset : decodeOp 5#3 chunk = .reset := rfl
@[simp] theorem decodeOp_reserved6 : decodeOp 6#3 chunk = .reserved6 := rfl
@[simp] theorem decodeOp_reserved7 : decodeOp 7#3 chunk = .reserved7 := rfl

end

/-- Settles O3: a command word is read through `decodeOp`, whose eight equations are the codes of R72;
only FEED's uses the chunk. -/
theorem commandCodesDecode : Obligations.CommandCodesDecode := fun _ _ =>
  ⟨decode_op_eq_instr (decodeOp_feed _), decode_op_eq_instr (decodeOp_isReady _),
    decode_op_eq_instr (decodeOp_getRecord _), decode_op_eq_instr (decodeOp_getError _),
    decode_op_eq_instr (decodeOp_getType _), decode_op_eq_instr (decodeOp_reset _),
    decode_op_eq_instr (decodeOp_reserved6 _), decode_op_eq_instr (decodeOp_reserved7 _)⟩

end Sys2Proof
end

section
/-! The hex-digit decoder (spec/40_hex_decoder.md, R90 to R93). -/

namespace Sys2Proof.Machine

/-- The two digits of a byte stand side by side, the first one high (R93, R44). -/
theorem joinNibbles_toNat (a b : BitVec 4) :
    ((a.setWidth 8 <<< 4) ||| b.setWidth 8 : Byte).toNat = 16 * a.toNat + b.toNat := by
  have ha := a.isLt
  have hb := b.isLt
  have hShift : (a.setWidth 8 <<< 4 : Byte).toNat = a.toNat <<< 4 := by
    simp only [BitVec.toNat_shiftLeft, BitVec.toNat_setWidth, Nat.shiftLeft_eq]
    omega
  rw [BitVec.toNat_or, hShift, BitVec.toNat_setWidth_of_le (by decide),
    ← Nat.shiftLeft_add_eq_or_of_lt hb, Nat.shiftLeft_eq, Nat.mul_comm]

/-- Two characters with a digit value make the byte of their digits (R93). -/
theorem decodeByte_of_digits {high low : Char8} {a b : BitVec 4} (ha : decodeDigit high = some a)
    (hb : decodeDigit low = some b) :
    decodeByte high low = some ((a.setWidth 8 <<< 4) ||| b.setWidth 8) := by
  simp only [decodeByte, ha, hb]

/-- Settles O15: the byte of two digits is their join, the first digit shifted above the second. -/
theorem byteIsHighNibbleFirst : Obligations.ByteIsHighNibbleFirst := fun _ _ a b ha hb =>
  ⟨_, decodeByte_of_digits ha hb, joinNibbles_toNat a b⟩

/-- R90: the test compares character codes. -/
theorem isHexDigit_iff (c : Char8) : isHexDigit c = true ↔
    (0x30 ≤ c.toNat ∧ c.toNat ≤ 0x39) ∨ (0x41 ≤ c.toNat ∧ c.toNat ≤ 0x46) ∨
    (0x61 ≤ c.toNat ∧ c.toNat ≤ 0x66) := by
  simp [isHexDigit, BitVec.le_def, or_assoc]

/-- R90: of the 256 character codes 10 + 6 + 6 are hex digits. -/
theorem hexDigit_count :
    ((List.range 256).filter (fun n => isHexDigit (BitVec.ofNat 8 n))).length = 22 := by decide

/-- Settles O12: the ranges by the comparison of codes, their size by counting. -/
theorem hexDigitsAreTheThreeRanges : Obligations.HexDigitsAreTheThreeRanges :=
  ⟨isHexDigit_iff, hexDigit_count⟩

/-- The offset of a character into its range, moved up by `shift`, keeps its value in 4 bits where it
is a digit's. -/
theorem digitOffset_toNat {c first shift : Char8} (hFirst : first.toNat ≤ c.toNat)
    (hDigit : c.toNat - first.toNat + shift.toNat < 16) :
    ((c - first + shift).setWidth 4).toNat = c.toNat - first.toNat + shift.toNat := by
  rw [BitVec.toNat_setWidth, BitVec.toNat_add, BitVec.toNat_sub_of_le hFirst]
  omega

section
variable {c : Char8}

/-- R91, `'0'` to `'9'`. -/
theorem decodeDigit_of_decimal (h : 0x30 ≤ c.toNat ∧ c.toNat ≤ 0x39) :
    decodeDigit c = some ((c - 0x30#8).setWidth 4) := by
  rw [decodeDigit, if_pos (by simpa [BitVec.le_def] using h)]

/-- R91, `'A'` to `'F'`. -/
theorem decodeDigit_of_upper (h : 0x41 ≤ c.toNat ∧ c.toNat ≤ 0x46) :
    decodeDigit c = some ((c - 0x41#8 + 10#8).setWidth 4) := by
  rw [decodeDigit, if_neg (by simp [BitVec.le_def]; omega),
    if_pos (by simpa [BitVec.le_def] using h)]

/-- R91, `'a'` to `'f'`. -/
theorem decodeDigit_of_lower (h : 0x61 ≤ c.toNat ∧ c.toNat ≤ 0x66) :
    decodeDigit c = some ((c - 0x61#8 + 10#8).setWidth 4) := by
  rw [decodeDigit, if_neg (by simp [BitVec.le_def]; omega),
    if_neg (by simp [BitVec.le_def]; omega), if_pos (by simpa [BitVec.le_def] using h)]

end

/-- Settles O13: in each range the decoder gives the offset into the range, from 0 for a decimal digit
and from 10 for a letter. -/
theorem digitValues : Obligations.DigitValues := by
  intro c
  refine ⟨fun h => ⟨_, decodeDigit_of_decimal h, ?_⟩, fun h => ⟨_, decodeDigit_of_upper h, ?_⟩,
    fun h => ⟨_, decodeDigit_of_lower h, ?_⟩⟩
  · have hOffset := digitOffset_toNat (c := c) (first := 0x30#8) (shift := 0#8) h.1
      (by simp; omega)
    simpa using hOffset
  · exact digitOffset_toNat (first := 0x41#8) (shift := 10#8) h.1 (by simp; omega)
  · exact digitOffset_toNat (first := 0x61#8) (shift := 10#8) h.1 (by simp; omega)

end Sys2Proof.Machine
end

section
/-! FEED and its dispatch rows, phase by phase (spec/41_feed.md, R100 to R116). -/

namespace Sys2Proof.Machine

/-- The dispatch row that a phase selects (R71). -/
def dispatchRow : Phase → List Char8 → Instr
  | .awaitStart => .feedStart
  | .awaitByteCount => .feedCount
  | .awaitAddress => .feedAddr
  | .awaitRecordType => .feedType
  | .awaitData => .feedData
  | .awaitChecksum => .feedCsum
  | .error => .feedErr

/-- The work of a phase's FEED on a chunk whose length is right (R100). -/
def phaseField : Phase → List Char8 → State → Host.Outcome State Fault Refusal
  | .awaitStart => startField
  | .awaitByteCount => countField
  | .awaitAddress => addrField
  | .awaitRecordType => typeField
  | .awaitData => dataField
  | .awaitChecksum => csumField
  | .error => fun _ => inertFeed

section
variable {s : State} {p : Phase} {chunk : List Char8} {i : Instr}

/-- R71: in the phase that selects it, a dispatch row is FEED. -/
theorem exec_dispatchRow (hp : s.phase = p) : exec (dispatchRow p chunk) s = execFeed chunk s := by
  cases p <;>
    simp only [dispatchRow, exec, execFeed, hp, selectedBy, if_true, execFeedStart, execFeedCount,
      execFeedAddr, execFeedType, execFeedData, execFeedCsum, execFeedErr]

theorem exec_feed_or_dispatchRow (hp : s.phase = p)
    (hi : i = .feed chunk ∨ i = dispatchRow p chunk) : exec i s = execFeed chunk s := by
  rcases hi with rfl | rfl
  · rfl
  · exact exec_dispatchRow hp

/-- R102: a chunk of the right length reaches its phase's work. -/
theorem execFeed_of_length_eq (hp : s.phase = p) (hl : chunk.length = expect s) :
    execFeed chunk s = phaseField p chunk s := by
  cases p <;> simp only [execFeed, hp, phaseField, lengthChecked, if_pos hl]

/-- R102: a chunk of another length fails, except in phase Error. -/
theorem execFeed_of_length_ne (hp : s.phase ≠ .error) (hl : chunk.length ≠ expect s) :
    execFeed chunk s = .next (raiseError .len s) := by
  cases h : s.phase with
  | error => exact absurd h hp
  | _ => simp only [execFeed, h, lengthChecked, if_neg hl]

/-- R116: in phase Error the length of the chunk is not looked at. -/
theorem execFeed_of_error (hp : s.phase = .error) : execFeed chunk s = inertFeed s := by
  simp only [execFeed, hp]

end

/-- Whatever the cause, the Error phase is entered as R149 says. -/
theorem fails_raiseError (c : Cause) (s : State) : Fails s (.next (raiseError c s)) :=
  ⟨_, _, rfl, rfl, ⟨rfl, rfl, rfl, rfl, rfl, rfl⟩, rfl, rfl, rfl⟩

theorem failsOnLength_raiseError (s : State) : FailsOnLength s (.next (raiseError .len s)) :=
  ⟨_, _, rfl, rfl, ⟨rfl, rfl, rfl, rfl, rfl, rfl⟩, rfl, errReq_len_pos s.draws, rfl, rfl⟩

/-! R29, the remaining rows that FEED checks a length against. -/

section
variable {s : State}

theorem expect_of_awaitByteCount (h : s.phase = .awaitByteCount) : expect s = 2 := by
  simp [expect, h]
theorem expect_of_awaitAddress (h : s.phase = .awaitAddress) : expect s = 4 := by
  simp [expect, h]
theorem expect_of_awaitRecordType (h : s.phase = .awaitRecordType) : expect s = 2 := by
  simp [expect, h]
theorem expect_of_awaitData (h : s.phase = .awaitData) : expect s = 2 * s.expCount.toNat := by
  simp [expect, h]
theorem expect_of_awaitChecksum (h : s.phase = .awaitChecksum) : expect s = 2 := by
  simp [expect, h]

end

section
variable {s : State} {p : Phase} {chunk : List Char8} {i : Instr} {n : Nat}

/-- FEED or the dispatch row of its phase, of a chunk of the right length: the phase's work. -/
theorem exec_eq_phaseField (hp : s.phase = p) (he : expect s = n)
    (hi : i = .feed chunk ∨ i = dispatchRow p chunk) (hl : chunk.length = n) :
    exec i s = phaseField p chunk s :=
  (exec_feed_or_dispatchRow hp hi).trans (execFeed_of_length_eq hp (hl.trans he.symm))

/-- The work's failure is the instruction's. -/
theorem exec_fails_of_phaseField {c : Cause} (hp : s.phase = p) (he : expect s = n)
    (hi : i = .feed chunk ∨ i = dispatchRow p chunk) (hl : chunk.length = n)
    (hf : phaseField p chunk s = .next (raiseError c s)) : Fails s (exec i s) := by
  rw [exec_eq_phaseField hp he hi hl, hf]
  exact fails_raiseError c s

/-- FEED or the dispatch row of its phase, of a chunk of another length, in every phase but Error. -/
theorem exec_failsOnLength (hp : s.phase = p) (he : expect s = n)
    (hi : i = .feed chunk ∨ i = dispatchRow p chunk) (hne : p ≠ .error) (hl : chunk.length ≠ n) :
    FailsOnLength s (exec i s) := by
  rw [exec_feed_or_dispatchRow hp hi, execFeed_of_length_ne (hp ▸ hne) (he ▸ hl)]
  exact failsOnLength_raiseError s

end

/-! What each phase's work answers. -/

section
variable {s : State} {chunk : List Char8}

theorem startField_delimiter : startField [startDelimiter] s =
    .next (accept { s with recType := .invalid, acc := 0#16, phase := .awaitByteCount }) := by
  simp only [startField, if_true]

theorem startField_other {c : Char8} (h : c ≠ startDelimiter) :
    startField [c] s = .next (raiseError .start s) := by
  simp only [startField, if_neg h]

theorem countField_of_byte {c0 c1 : Char8} {b : Byte} (hb : decodeByte c0 c1 = some b) :
    countField [c0, c1] s = .next (accept { s with
      expCount := b, acc := accAdd s.acc b, phase := .awaitAddress }) := by
  simp only [countField, decodeBytes_one hb]

theorem countField_of_not_hex (h : chunk.all isHexDigit = false) :
    countField chunk s = .next (raiseError .hex s) := by
  simp only [countField, decodeBytes_eq_none h]

theorem addrField_of_bytes {c0 c1 c2 c3 : Char8} {hi lo : Byte} (hHi : decodeByte c0 c1 = some hi)
    (hLo : decodeByte c2 c3 = some lo) :
    addrField [c0, c1, c2, c3] s = .next (accept { s with
      addr := joinAddr hi lo, acc := accAdd (accAdd s.acc hi) lo, phase := .awaitRecordType }) := by
  simp only [addrField, decodeBytes_two hHi hLo]

theorem addrField_of_not_hex (h : chunk.all isHexDigit = false) :
    addrField chunk s = .next (raiseError .hex s) := by
  simp only [addrField, decodeBytes_eq_none h]

/-- R113, a Data record: the type byte 0 leaves the accumulator as it is. -/
theorem typeField_data (h : s.expCount.toNat ≤ Config.maxPayload) :
    typeField [charZero, charZero] s = .next (accept { s with phase := .awaitData }) := by
  have hAcc : accAdd s.acc 0#8 = s.acc := BitVec.add_zero s.acc
  simp only [typeField, if_true, if_neg (Nat.not_lt.mpr h), hAcc]

theorem typeField_count (h : Config.maxPayload < s.expCount.toNat) :
    typeField [charZero, charZero] s = .next (raiseError .count s) := by
  simp only [typeField, if_true, if_pos h]

theorem typeField_endOfFile : typeField [charZero, charOne] s = .next (accept { s with
    acc := accAdd s.acc 1#8, recType := .endOfFile, phase := .awaitChecksum }) := by
  have hNotData : [charZero, charOne] ≠ [charZero, charZero] := by decide
  simp only [typeField, if_neg hNotData, if_true]

theorem typeField_other (hData : chunk ≠ [charZero, charZero]) (hEof : chunk ≠ [charZero, charOne]) :
    typeField chunk s = .next (raiseError .type s) := by
  simp only [typeField, if_neg hData, if_neg hEof]

theorem dataField_of_bytes {bytes : List Byte} (hd : decodeBytes chunk = some bytes)
    (h : s.expCount.toNat ≤ Config.maxPayload) :
    dataField chunk s = .next (accept { s with
      buf := Memory.writeBlock s.buf 0 bytes, acc := accAddAll s.acc bytes,
      recType := .data, payLen := s.expCount, phase := .awaitChecksum }) := by
  simp only [dataField, hd, if_neg (Nat.not_lt.mpr h)]

theorem dataField_of_not_hex (h : chunk.all isHexDigit = false) :
    dataField chunk s = .next (raiseError .hex s) := by
  simp only [dataField, decodeBytes_eq_none h]

theorem csumField_of_sum_zero {c0 c1 : Char8} {c : Byte} (hc : decodeByte c0 c1 = some c)
    (h : sumIsZero (accAdd s.acc c) = true) : csumField [c0, c1] s =
      .next (accept { s with acc := accAdd s.acc c, phase := .awaitStart }) := by
  simp only [csumField, decodeBytes_one hc, if_pos h]

theorem csumField_of_sum_ne_zero {c0 c1 : Char8} {c : Byte} (hc : decodeByte c0 c1 = some c)
    (h : ¬ sumIsZero (accAdd s.acc c) = true) :
    csumField [c0, c1] s = .next (raiseError .csum s) := by
  simp only [csumField, decodeBytes_one hc, if_neg h]

theorem csumField_of_not_hex (h : chunk.all isHexDigit = false) :
    csumField chunk s = .next (raiseError .hex s) := by
  simp only [csumField, decodeBytes_eq_none h]

end

/-- The checksum's test on a further byte (R103, R115): 256 divides 2^16, so the accumulator's wrap is
not seen. -/
theorem sumIsZero_accAdd_iff (a : BitVec 16) (b : Byte) :
    sumIsZero (accAdd a b) = true ↔ (a.toNat + b.toNat) % 256 = 0 := by
  rw [sumIsZero_iff, accAdd, BitVec.toNat_add, BitVec.toNat_setWidth]
  omega

section
variable {s t : State} {bytes : List Byte} {k : Nat}

/-- R46: a field stored from index 0 is read back from its own indices. -/
theorem bufByte_writeBlock_of_lt (hBuf : t.buf = Memory.writeBlock s.buf 0 bytes)
    (hk : k < bytes.length) : some (bufByte t k) = bytes[k]? := by
  have hRead : Memory.read t.buf k = some bytes[k] := by
    rw [hBuf, Memory.read_writeBlock, if_pos (by omega), Nat.sub_zero, List.getElem?_eq_getElem hk]
  simp only [bufByte, hRead, List.getElem?_eq_getElem hk]

/-- R114: the indices past the field keep their bytes, written or not. -/
theorem bufByte_writeBlock_of_ge (hBuf : t.buf = Memory.writeBlock s.buf 0 bytes)
    (hPowerOns : t.powerOns = s.powerOns) (hk : bytes.length ≤ k) : bufByte t k = bufByte s k := by
  have hRead : Memory.read t.buf k = Memory.read s.buf k := by
    rw [hBuf, Memory.read_writeBlock, if_neg (by omega)]
  simp only [bufByte, hRead, hPowerOns]

end

/-- Settles O18: the three clauses are the two answers of `startField` and the length check. -/
theorem feedInAwaitStart : Obligations.FeedInAwaitStart := by
  intro s chunk i hp hi
  have he := expect_of_awaitStart hp
  refine ⟨?_, ?_, exec_failsOnLength hp he hi (by decide)⟩
  · rintro rfl
    exact (exec_eq_phaseField hp he hi rfl).trans startField_delimiter
  · rintro c rfl hc
    exact exec_fails_of_phaseField hp he hi rfl (startField_other hc)

/-- Settles O19: the three clauses are the two answers of `countField` and the length check. -/
theorem feedInAwaitByteCount : Obligations.FeedInAwaitByteCount := by
  intro s chunk i hp hi
  have he := expect_of_awaitByteCount hp
  refine ⟨?_, fun hl hx => exec_fails_of_phaseField hp he hi hl (countField_of_not_hex hx),
    exec_failsOnLength hp he hi (by decide)⟩
  rintro c0 c1 b rfl hb
  exact (exec_eq_phaseField hp he hi rfl).trans (countField_of_byte hb)

/-- Settles O20: the address is `joinAddr` of the two bytes, whose value is `joinAddr_toNat`. -/
theorem feedInAwaitAddress : Obligations.FeedInAwaitAddress := by
  intro s chunk i hp hi
  have he := expect_of_awaitAddress hp
  refine ⟨?_, fun hl hx => exec_fails_of_phaseField hp he hi hl (addrField_of_not_hex hx),
    exec_failsOnLength hp he hi (by decide)⟩
  rintro c0 c1 c2 c3 hi' lo rfl hHi hLo
  exact ⟨joinAddr hi' lo, joinAddr_toNat hi' lo,
    (exec_eq_phaseField hp he hi rfl).trans (addrField_of_bytes hHi hLo)⟩

/-- Settles O21: the clauses are the four answers of `typeField` and the length check. -/
theorem feedInAwaitRecordType : Obligations.FeedInAwaitRecordType := by
  intro s chunk i hp hi
  have he := expect_of_awaitRecordType hp
  refine ⟨?_, ?_, ?_, fun hl hData hEof =>
      exec_fails_of_phaseField hp he hi hl (typeField_other hData hEof),
    exec_failsOnLength hp he hi (by decide)⟩
  · rintro rfl hCount
    exact (exec_eq_phaseField hp he hi rfl).trans (typeField_data hCount)
  · rintro rfl hCount
    exact exec_fails_of_phaseField hp he hi rfl (typeField_count hCount)
  · rintro rfl
    exact (exec_eq_phaseField hp he hi rfl).trans typeField_endOfFile

/-- Settles O22: the field has as many bytes as the count asks for, so the block write reaches exactly
the indices below it. -/
theorem feedInAwaitData : Obligations.FeedInAwaitData := by
  intro s chunk i hp hCount hi
  have he := expect_of_awaitData hp
  refine ⟨?_, fun hl hx => exec_fails_of_phaseField hp he hi hl (dataField_of_not_hex hx),
    exec_failsOnLength hp he hi (by decide)⟩
  intro bytes hl hd
  have hLen : bytes.length = s.expCount.toNat := by
    have := decodeBytes_length hd
    omega
  refine ⟨_, (exec_eq_phaseField hp he hi hl).trans (dataField_of_bytes hd hCount), rfl, rfl, rfl,
    accAddAll_eq s.acc bytes, hLen, fun k hk => ?_, fun k hk => ?_, rfl, rfl, rfl, rfl, rfl, rfl⟩
  · exact bufByte_writeBlock_of_lt (s := s) rfl (hLen ▸ hk)
  · exact bufByte_writeBlock_of_ge rfl rfl (hLen ▸ hk)

/-- Settles O23: the test of `csumField` is the sum's remainder modulo 256. -/
theorem feedInAwaitChecksum : Obligations.FeedInAwaitChecksum := by
  intro s chunk i hp hi
  have he := expect_of_awaitChecksum hp
  refine ⟨?_, fun hl hx => exec_fails_of_phaseField hp he hi hl (csumField_of_not_hex hx),
    exec_failsOnLength hp he hi (by decide)⟩
  rintro c0 c1 c rfl hc
  refine ⟨fun hSum => ?_, fun hSum => ?_⟩
  · have hZero := (sumIsZero_accAdd_iff s.acc c).mpr hSum
    exact ⟨_, (exec_eq_phaseField hp he hi rfl).trans (csumField_of_sum_zero hc hZero), rfl,
      fun hType => (ready_iff _).mpr ⟨rfl, hType⟩⟩
  · have hNonzero := mt (sumIsZero_accAdd_iff s.acc c).mp hSum
    exact exec_fails_of_phaseField hp he hi rfl (csumField_of_sum_ne_zero hc hNonzero)

/-- R102: of what a FEED can do, ending in Error from another phase is `raiseError`. -/
theorem FeedEffect.eq_raiseError {chunk : List Char8} {s t : State} (h : FeedEffect chunk s t)
    (hs : s.phase ≠ .error) (ht : t.phase = .error) : ∃ c, t = raiseError c s := by
  cases h with
  | inert hp => exact absurd hp hs
  | failed c _ => exact ⟨c, rfl⟩
  | _ => cases ht

/-- Settles O25: the length check comes before the phase's work; and the only effect of FEED that
ends in Error is `raiseError`, whatever the cause. -/
theorem wrongLengthFails : Obligations.WrongLengthFails := by
  intro s chunk hs
  refine ⟨exec_failsOnLength rfl rfl (.inl rfl) hs, fun t hNext ht => ?_⟩
  obtain ⟨c, rfl⟩ := (execFeed_effect hNext).eq_raiseError hs ht
  exact ⟨rfl, rfl, rfl, rfl, rfl, rfl⟩

/-- R101: of what a FEED can do, not ending in Error is `accept`, which reads `Expect` off the state
it answers. -/
theorem FeedEffect.rsp_eq_expect {chunk : List Char8} {s t : State} (h : FeedEffect chunk s t)
    (ht : t.phase ≠ .error) : t.rsp = .request (expect t) := by
  cases h with
  | inert hp => exact absurd hp ht
  | failed c _ => exact absurd (raiseError_phase c s) ht
  | _ => exact accept_rsp _

theorem rspReq_of_request {s : State} {n : Nat} (h : s.rsp = .request n) :
    rspReq s = some (BitVec.ofNat 16 n) := by
  simp only [rspReq, h]

/-- Settles O27: the response is `Expect` of the state left, and both outputs show that number. -/
theorem successfulFeedReturnsNextRequest : Obligations.SuccessfulFeedReturnsNextRequest := by
  intro s t chunk hNext ht
  have hRsp := (execFeed_effect hNext).rsp_eq_expect ht
  exact ⟨hRsp, rspReq_of_request hRsp⟩

/-- Settles O24: in phase Error FEED and its row are `inertFeed`, whatever the chunk. -/
theorem feedInErrorIsInert : Obligations.FeedInErrorIsInert := fun _ _ _ hp hi =>
  (exec_feed_or_dispatchRow hp hi).trans (execFeed_of_error hp)

end Sys2Proof.Machine
end

section
/-! The query operations (spec/42_query.md, R120 to R123). -/

namespace Sys2Proof.Machine

section
variable {s : State}

/-- R122: a Data record reports its true length. -/
theorem reportedLength_of_data (h : s.recType = .data) : reportedLength s = s.payLen := by
  simp only [reportedLength, h]

/-- R122: every other type reports length 0. -/
theorem reportedLength_of_ne_data (h : s.recType ≠ .data) : reportedLength s = 0#8 := by
  cases hType : s.recType with
  | data => exact absurd hType h
  | _ => simp only [reportedLength, hType]

/-- R122: the gate only ever shortens the length held. -/
theorem reportedLength_le_payLen (s : State) : (reportedLength s).toNat ≤ s.payLen.toNat := by
  by_cases h : s.recType = .data
  · rw [reportedLength_of_data h]
  · rw [reportedLength_of_ne_data h]
    exact Nat.zero_le _

@[simp] theorem bufBytes_length (s : State) (n : Nat) : (bufBytes s n).length = n := by
  simp [bufBytes]

/-- R46: the bytes are listed in the order of their indices. -/
theorem bufBytes_getElem? {n k : Nat} (h : k < n) : (bufBytes s n)[k]? = some (bufByte s k) := by
  simp [bufBytes, h]

@[simp] theorem exec_isReady (s : State) :
    exec .isReady s = .next (respond (.flag (ready s)) s) := rfl
@[simp] theorem exec_getError (s : State) :
    exec .getError s = .next (respond (.flag (err s)) s) := rfl
@[simp] theorem exec_getType (s : State) :
    exec .getType s = .next (respond (.recType s.recType) s) := rfl

/-- R122: within the buffer GET_RECORD answers with the record. -/
theorem exec_getRecord_of_le (h : (reportedLength s).toNat ≤ Config.maxPayload) :
    exec .getRecord s = .next (respond (.record (recordOf s)) s) :=
  if_neg (Nat.not_lt.mpr h)

end

/-- Settles O35: the gate keeps the length within the bound, so the record is `recordOf`, whose
payload is as many bytes of the buffer as it reports. -/
theorem getRecordResult : Obligations.GetRecordResult := by
  intro s hLen
  have hBound : (reportedLength s).toNat ≤ Config.maxPayload :=
    (reportedLength_le_payLen s).trans hLen
  exact ⟨recordOf s, exec_getRecord_of_le hBound, rfl, rfl, reportedLength_of_data,
    reportedLength_of_ne_data, bufBytes_length s _, fun _ hk => bufBytes_getElem? hk⟩

/-- Settles O32: the flag is `ready`, read by `ready_iff`. -/
theorem isReadyResult : Obligations.IsReadyResult := fun s =>
  ⟨ready s, exec_isReady s, ready_iff s⟩

/-- Settles O33: the flag is `err`, read by `err_iff`. -/
theorem getErrorResult : Obligations.GetErrorResult := fun s =>
  ⟨err s, exec_getError s, err_iff s⟩

/-- Settles O34: the response is the register and `respond` writes nothing else. -/
theorem getTypeResult : Obligations.GetTypeResult := exec_getType

end Sys2Proof.Machine
end

section
/-! The RESET operation (spec/43_reset.md, R130). -/

namespace Sys2Proof.Machine

/-- R130: RESET has no precondition and cannot fail. -/
@[simp] theorem exec_reset (s : State) : exec .reset s = .next (resetParser s) := rfl

section
variable (s : State)

@[simp] theorem expect_resetParser : expect (resetParser s) = 1 :=
  expect_of_awaitStart (resetParser_phase s)

@[simp] theorem ready_resetParser : ready (resetParser s) = false :=
  ready_eq_false_of_invalid (resetParser_recType s)

@[simp] theorem err_resetParser : err (resetParser s) = false :=
  err_eq_false_of_phase_ne (by simp)

end

/-- Settles O38: the state left is `resetParser s`, whose three outputs follow from its phase and its
type (R29, R30, R31). -/
theorem resetResult : Obligations.ResetResult := fun s =>
  ⟨resetParser s, exec_reset s, rfl, err_resetParser s, ready_resetParser s, expect_resetParser s⟩

end Sys2Proof.Machine
end

section
/-! Entry to the Error phase (spec/60_exceptions.md, R149). -/

namespace Sys2Proof.Machine

/-- R29: in phase Error no character is requested. -/
@[simp] theorem expect_raiseError (c : Cause) (s : State) : expect (raiseError c s) = 0 := rfl

/-- R121: GET_ERROR sees the error that was raised. -/
theorem exec_getError_raiseError (c : Cause) (s : State) :
    exec .getError (raiseError c s) = .next (respond (.flag true) (raiseError c s)) := by
  rw [exec_getError, err_raiseError]

/-- R120: IS_READY sees no record once an error has been raised. -/
theorem exec_isReady_raiseError (c : Cause) (s : State) :
    exec .isReady (raiseError c s) = .next (respond (.flag false) (raiseError c s)) := by
  rw [exec_isReady, ready_raiseError]

/-- Settles O28: a FEED that enters Error is `raiseError`, whatever the cause;
the flags and the request of that state depend on neither the cause nor the state left behind. -/
theorem failingFeedWritesPhaseOnly : Obligations.FailingFeedWritesPhaseOnly := by
  intro s t chunk hs hNext ht
  have hSame : SameButPhase s t := (wrongLengthFails s chunk hs).2 t hNext ht
  obtain ⟨c, rfl⟩ := (execFeed_effect hNext).eq_raiseError hs ht
  exact ⟨hSame, ⟨_, raiseError_rsp c s⟩, raiseError_input c s, raiseError_powerOns c s,
    exec_getError_raiseError c s, exec_isReady_raiseError c s, expect_raiseError c s⟩

end Sys2Proof.Machine
end

section
/-! The decoder on the words the encoder writes, and the rows of the table
(spec/30_encoding.md sections 1, 3 and 4). -/

namespace Sys2Proof

open Machine

theorem fitsLanes_iff (chunk : List Char8) :
    fitsLanes chunk = true ↔ chunk.length ≤ Config.chunkLanes := decide_eq_true_iff

/-- The lanes of an encoded chunk that fits them present that very chunk. -/
theorem chunkOfLanes_encoded_of_fits {chunk : List Char8} (h : fitsLanes chunk = true) :
    chunkOfLanes (BitVec.ofNat 16 chunk.length).toNat (chunk.take Config.chunkLanes) = chunk := by
  have hLen := (fitsLanes_iff chunk).mp h
  rw [chunkOfLanes_encoded (hLen.trans_lt (by decide)), presentedChunk_self hLen]

/-- A FEED row's word is read by its selector, with the chunk whole. -/
theorem decode_feedWord {sel : BitVec 6} {chunk : List Char8} (h : fitsLanes chunk = true) :
    decode (feedWord sel chunk) = decodeFeed sel chunk :=
  congrArg (decodeFeed sel) (chunkOfLanes_encoded_of_fits h)

/-- Settles O1: the rows with a chunk turn on its crossing the lanes whole, the REC rows on the split
of their characters into fields; every other row's word has no operand. -/
theorem decodeEncodeRoundTrip : Obligations.DecodeEncodeRoundTrip := by
  intro i hwf
  cases i with
  | feed chunk => exact decode_op_eq_instr (congrArg Instr.feed (chunkOfLanes_encoded_of_fits hwf))
  | feedStart chunk => exact decode_feedWord hwf
  | feedCount chunk => exact decode_feedWord hwf
  | feedAddr chunk => exact decode_feedWord hwf
  | feedType chunk => exact decode_feedWord hwf
  | feedData chunk => exact decode_feedWord hwf
  | feedCsum chunk => exact decode_feedWord hwf
  | feedErr chunk => exact decode_feedWord hwf
  | recData bb ah al dd cc => exact decodeRecord_data bb ah al dd cc
  | recEof bb ah al cc => exact decodeRecord_eof bb ah al cc
  | _ => rfl

/-- D22: the characters on the lanes are the chunk's own. -/
theorem presentedChunk_take (chunk : List Char8) :
    (presentedChunk chunk).take Config.chunkLanes = chunk.take Config.chunkLanes := by
  rcases Nat.le_total chunk.length Config.chunkLanes with h | h
  · rw [presentedChunk_self h]
  · rw [presentedChunk, chunkOfLanes_take h (by simp [h]), List.take_take, Nat.min_self]

/-- Settles O2: the decoder's chunk is `presentedChunk`, which has the length of `cmd_len` and the
lanes' characters. -/
theorem chunkCrossesThePort : Obligations.ChunkCrossesThePort := fun chunk hLen =>
  ⟨decode_op_eq_instr (congrArg Instr.feed (chunkOfLanes_encoded hLen)),
    chunkOfLanes_length _ _, presentedChunk_self, presentedChunk_take chunk⟩

/-- The CHAR rows: a character is the start delimiter, or a hex digit, whose row answers its value, or
has no row (R64, R74). -/
theorem decodeChar_cases (c : Char8) :
    (c = startDelimiter ∧ decodeChar c = .instr .charStart) ∨
    (isHexDigit c = true ∧ ∃ i, decodeChar c = .instr i ∧
      ∀ s, exec i s = .next (respond (.digit (decodeDigit c)) s)) ∨
    (c ≠ startDelimiter ∧ isHexDigit c = false ∧ decodeChar c = .rejected (.noCharRow c)) := by
  have hexRow : ∀ {n : Nat} {i : Instr}, c.toNat = n → isHexDigit (BitVec.ofNat 8 n) = true →
      (∀ s, exec i s = .next (respond (.digit (decodeDigit (BitVec.ofNat 8 n))) s)) →
      isHexDigit c = true ∧ ∃ j, Decoded.instr i = .instr j ∧
        ∀ s, exec j s = .next (respond (.digit (decodeDigit c)) s) := by
    rintro n i rfl hHex hExec
    rw [BitVec.ofNat_toNat, BitVec.setWidth_eq] at hHex hExec
    exact ⟨hHex, i, rfl, hExec⟩
  unfold decodeChar
  split
  case h_1 h => exact .inl ⟨BitVec.eq_of_toNat_eq h, rfl⟩
  case h_24 =>
    refine .inr (.inr ⟨?_, ?_, rfl⟩)
    · rintro rfl
      contradiction
    · rw [Bool.eq_false_iff, Ne, isHexDigit_iff]
      simp only [imp_false] at *
      omega
  all_goals exact .inr (.inl (hexRow ‹_› rfl fun _ => rfl))

/-- Settles O4: the three cases of a character exclude each other. -/
theorem characterRowsAreExact : Obligations.CharacterRowsAreExact := by
  intro c
  rcases decodeChar_cases c with ⟨rfl, hRow⟩ | ⟨hHex, i, hRow, hExec⟩ | ⟨hStart, hHex, hRow⟩
  · exact ⟨⟨fun _ => .inl rfl, fun _ => ⟨_, hRow⟩⟩, nofun⟩
  · exact ⟨⟨fun _ => .inr hHex, fun _ => ⟨i, hRow⟩⟩, fun _ => ⟨i, hRow, hExec⟩⟩
  · have hNone : ∀ i, decode (.char c) ≠ .instr i := fun i h => by cases hRow.symm.trans h
    refine ⟨⟨fun ⟨i, h⟩ => absurd h (hNone i), ?_⟩, fun h => absurd h (by simp [hHex])⟩
    rintro (h | h)
    · exact absurd h hStart
    · exact absurd h (by simp [hHex])

/-- A selector by its two fields: `cmd_op` in the low three bits, the phase code above (R74). -/
theorem selector_isRow_iff (sel : BitVec 6) :
    sel.extractLsb' 0 3 = 0#3 ∧ sel.extractLsb' 3 3 ≠ 7#3 ↔ sel.toNat % 8 = 0 ∧ sel.toNat ≠ 56 := by
  have := sel.isLt
  simp only [ne_eq, ← BitVec.toNat_inj, BitVec.extractLsb'_toNat, BitVec.toNat_ofNat,
    Nat.shiftRight_eq_div_pow]
  omega

/-- A selector has a row, or the decoder rejects it by name (R74, R20). -/
theorem decodeFeed_cases (sel : BitVec 6) (chunk : List Char8) :
    ((sel.toNat % 8 = 0 ∧ sel.toNat ≠ 56) ∧ ∃ i, decodeFeed sel chunk = .instr i) ∨
    (¬ (sel.toNat % 8 = 0 ∧ sel.toNat ≠ 56) ∧
      decodeFeed sel chunk = .rejected (.noDispatchRow sel)) := by
  have := sel.isLt
  unfold decodeFeed
  split
  case h_8 =>
    refine .inr ⟨?_, rfl⟩
    simp only [imp_false] at *
    omega
  all_goals exact .inl ⟨by omega, _, rfl⟩

end Sys2Proof
end

section
/-! One step: the cycle decides (spec/30_encoding.md R73, spec/70_reset_and_hazards.md). -/

namespace Sys2Proof.Machine

section
variable {s : State} {rest : List PortCycle}

/-- R160: `rst` is looked at first. -/
theorem step_rst {valid : Bool} {word : CodeWord} (hi : s.input = ⟨true, valid, word⟩ :: rest) :
    step s = .next (hardwareReset { s with input := rest }) := by
  simp [step, fetchCycle, hi]

/-- R73: without a command the state holds. -/
theorem step_idle {word : CodeWord} (hi : s.input = ⟨false, false, word⟩ :: rest) :
    step s = .next (respond .none { s with input := rest }) := by
  simp [step, fetchCycle, hi, idleCycle_eq]

/-- A command that no row matches (log entry 15). -/
theorem step_rejected {word : CodeWord} {r : Reject} (hi : s.input = ⟨false, true, word⟩ :: rest)
    (hd : decode word = .rejected r) : step s = execUndecoded word { s with input := rest } := by
  simp [step, fetchCycle, hi, hd]

end

/-- Settles O5: of the 64 selectors the seven multiples of 8 below 56 have a row; the step of another
runs `execUndecoded`. -/
theorem dispatchRowsAreExact : Obligations.DispatchRowsAreExact := by
  intro sel len lanes
  rw [selector_isRow_iff]
  rcases decodeFeed_cases sel (chunkOfLanes len.toNat lanes) with ⟨hSel, hRow⟩ | ⟨hSel, hRow⟩
  · exact ⟨⟨fun _ => hSel, fun _ => hRow⟩, fun h => absurd hRow h⟩
  · have hNone : ¬ ∃ i, decode (.feed sel len lanes) = .instr i :=
      fun ⟨i, h⟩ => by cases hRow.symm.trans h
    exact ⟨⟨fun h => absurd h hNone, fun h => absurd h hSel⟩, fun _ s rest hi => step_rejected hi hRow⟩

/-- R76: nine characters on, the type field has been read and its record is rejected. -/
theorem decodeRecord_rejected_of_type {head tail : List Char8} {t0 t1 : Char8}
    (hHead : head.length = 7) (hData : ¬ (t0 = charZero ∧ t1 = charZero))
    (hEof : ¬ (t0 = charZero ∧ t1 = charOne)) :
    ∃ r, decodeRecord (head ++ [t0, t1] ++ tail) = .rejected r := by
  match head, hHead with
  | [d, b0, b1, a0, a1, a2, a3], _ =>
    by_cases hd : d = startDelimiter <;> simp [decodeRecord, hd, hData, hEof]

/-- Settles O6: such a string is rejected, and a rejected string is fed. -/
theorem unknownRecordTypeIsNoRecord : Obligations.UnknownRecordTypeIsNoRecord := by
  intro head tail t0 t1 hHead hData hEof
  obtain ⟨r, hr⟩ := decodeRecord_rejected_of_type (tail := tail) hHead hData hEof
  exact ⟨fun i h => (nomatch hr.symm.trans h), fun s rest hi => step_rejected hi hr⟩

/-- Settles O7: each word is read by the row its selecting bits name. -/
theorem sampleWordsDecode : Obligations.SampleWordsDecode :=
  ⟨decode_op_eq_instr (decodeOp_feed _), decode_op_eq_instr (decodeOp_reset _), rfl,
    decodeRecord_eof ⟨0x30#8, 0x30#8⟩ ⟨0x30#8, 0x30#8⟩ ⟨0x30#8, 0x30#8⟩ ⟨0x46#8, 0x46#8⟩, rfl⟩

/-- Settles O8: the cases of `step` that remain are `step_instr`. -/
theorem stepRunsTheDecodedInstruction : Obligations.StepRunsTheDecodedInstruction :=
  fun _ _ _ _ hi hd => step_instr hi hd

/-- Settles O9: `rst` leaves `hardwareReset`, whose empty buffer reads as the new power-on bytes. -/
theorem hardwareResetWinsOverACommand : Obligations.HardwareResetWinsOverACommand :=
  fun _ _ _ _ hi => ⟨_, step_rst hi, rfl, rfl, rfl, rfl, rfl, rfl, rfl, rfl, fun _ => rfl⟩

section
variable {s t u : State}

@[simp] theorem SameParser.refl (s : State) : SameParser s s := ⟨rfl, rfl, rfl, rfl, rfl, rfl, rfl⟩

theorem SameParser.trans (h : SameParser s t) (h' : SameParser t u) : SameParser s u := by
  obtain ⟨h1, h2, h3, h4, h5, h6, h7⟩ := h
  obtain ⟨g1, g2, g3, g4, g5, g6, g7⟩ := h'
  exact ⟨g1.trans h1, g2.trans h2, g3.trans h3, g4.trans h4, g5.trans h5, g6.trans h6, g7.trans h7⟩

/-- A response is no part of the parser. -/
theorem sameParser_respond (r : Response) (s : State) : SameParser s (respond r s) := .refl s

/-- Nor is the host's script. -/
theorem sameParser_input (s : State) (l : List PortCycle) : SameParser s { s with input := l } :=
  .refl s

end

/-- A run whose first step answers goes on from its answer. -/
theorem run_succ {s t : State} (n : Nat) (h : step s = .next t) :
    Host.Core.run Sys2Proof.core (n + 1) s = Host.Core.run Sys2Proof.core n t := by
  have h' : Sys2Proof.core.step s = .next t := h
  simp only [Host.Core.run, h']

/-- Settles O10, by induction on the cycles. -/
theorem idleCyclesChangeNothing : Obligations.IdleCyclesChangeNothing := by
  intro words
  induction words with
  | nil => exact fun s rest hi => ⟨s, rfl, .refl s, hi, rfl, rfl⟩
  | cons w ws ih =>
    intro s rest hi
    obtain ⟨t, hRun, hSame, hInput, hDraws, hPowerOns⟩ :=
      ih (respond .none { s with input := ws.map (fun w => ⟨false, false, w⟩) ++ rest }) rest rfl
    exact ⟨t, (run_succ _ (step_idle hi)).trans hRun, hSame, hInput, hDraws, hPowerOns⟩

/-- Settles O14: the values of `decodeDigit` and `decodeByte` by their `isSome` laws. -/
theorem onlyHexDigitsHaveAValue : Obligations.OnlyHexDigitsHaveAValue :=
  ⟨fun c => by rw [← Option.isSome_iff_exists, decodeDigit_isSome],
    fun high low => by rw [← Option.isSome_iff_exists, decodeByte_isSome, Bool.and_eq_true]⟩

/-- Settles O16: the length and the pair of each byte are laws of `decodeBytes`. -/
theorem fieldBytesAreItsPairsInOrder : Obligations.FieldBytesAreItsPairsInOrder :=
  fun _ _ h => ⟨decodeBytes_length h, fun _ hk => decodeBytes_get h hk⟩

/-- Settles O17: each row is `decodeCharacter` of its own character. -/
theorem hexCharacterRowsGiveTheirValue : Obligations.HexCharacterRowsGiveTheirValue := fun _ =>
  ⟨rfl, rfl, rfl, rfl, rfl, rfl, rfl, rfl, rfl, rfl, rfl, rfl, rfl, rfl, rfl, rfl, rfl, rfl, rfl, rfl,
    rfl, rfl⟩

end Sys2Proof.Machine
end

section
/-! The invariant of the reachable states (spec/10_state.md section 5, R34). -/

namespace Sys2Proof.Machine

section
variable {s t : State}

/-- The invariant speaks of the seven registers and the buffer alone. -/
theorem ParserInv.of_sameParser (hs : ParserInv s) (h : SameParser s t) : ParserInv t := by
  obtain ⟨hPhase, hCount, hAddr, hAcc, hLen, hType, hBuf⟩ := h
  cases s
  cases t
  simp only at hPhase hCount hAddr hAcc hLen hType hBuf
  subst hPhase hCount hAddr hAcc hLen hType hBuf
  exact ⟨hs.bufWf, hs.payLenBound, hs.countBound, hs.payloadWritten, hs.midFlight, hs.checksumTyped,
    hs.readySum⟩

/-- Every payload register that a FEED leaves alone keeps its clauses of the invariant; what remains to
show is the clauses of the new phase. -/
theorem ParserInv.of_payload_kept (hs : ParserInv s) (hLen : t.payLen = s.payLen)
    (hBuf : t.buf = s.buf) (hType : t.recType = .data → s.recType = .data)
    (hCount : t.phase = .awaitData → t.expCount.toNat ≤ Config.maxPayload)
    (hMid : t.phase = .awaitByteCount ∨ t.phase = .awaitAddress ∨ t.phase = .awaitRecordType ∨
      t.phase = .awaitData → t.recType = .invalid)
    (hTyped : t.phase = .awaitChecksum → t.recType ≠ .invalid)
    (hReady : ready t = true → t.acc.setWidth 8 = 0#8) : ParserInv t where
  bufWf := hBuf ▸ hs.bufWf
  payLenBound := hLen ▸ hs.payLenBound
  countBound := hCount
  payloadWritten h := by
    rw [hLen, hBuf]
    exact hs.payloadWritten (hType h)
  midFlight := hMid
  checksumTyped := hTyped
  readySum := hReady

/-- A block of as many bytes as the length says is written whole. -/
theorem read_writeBlock_of_lt {m : Memory} {bytes : List Byte} {k : Nat} (hk : k < bytes.length) :
    ∃ b, Memory.read (Memory.writeBlock m 0 bytes) k = some b :=
  ⟨bytes[k], by rw [Memory.read_writeBlock, if_pos (by omega), Nat.sub_zero,
    List.getElem?_eq_getElem hk]⟩

/-- A FEED keeps the invariant: only the data phase writes the payload, and each phase sets the type
that the next one asks for. -/
theorem FeedEffect.keeps_inv {chunk : List Char8} (h : FeedEffect chunk s t) (hs : ParserInv s) :
    ParserInv t := by
  cases h with
  | inert _ => exact hs.of_sameParser (sameParser_respond _ _)
  | failed c _ => exact hs.of_payload_kept rfl rfl id nofun (by simp) nofun nofun
  | start _ _ => exact hs.of_payload_kept rfl rfl nofun nofun (fun _ => rfl) nofun nofun
  | count b hp _ =>
    exact hs.of_payload_kept rfl rfl id nofun (fun _ => hs.midFlight (.inl hp)) nofun nofun
  | address hi lo hp _ =>
    exact hs.of_payload_kept rfl rfl id nofun (fun _ => hs.midFlight (.inr (.inl hp))) nofun nofun
  | typeData hp _ hCount =>
    exact hs.of_payload_kept rfl rfl id (fun _ => hCount)
      (fun _ => hs.midFlight (.inr (.inr (.inl hp)))) nofun nofun
  | typeEof _ _ => exact hs.of_payload_kept rfl rfl nofun nofun (by simp) (fun _ => nofun) nofun
  | data bytes _ _ hLen hCount =>
    exact
      { bufWf := Memory.wf_writeBlock hs.bufWf (by omega)
        payLenBound := hCount
        countBound := nofun
        payloadWritten := fun _ _ hk => read_writeBlock_of_lt (hLen ▸ hk)
        midFlight := by simp
        checksumTyped := fun _ => nofun
        readySum := nofun }
  | checksum c _ _ hSum =>
    exact hs.of_payload_kept rfl rfl id nofun (by simp) nofun (fun _ => by simpa [sumIsZero] using hSum)

theorem execFeed_keeps_inv (chunk : List Char8) (s t : State) (hs : ParserInv s)
    (h : execFeed chunk s = .next t) : ParserInv t := (execFeed_effect h).keeps_inv hs

theorem feedRecord_keeps_inv {chars : List Char8} (hs : ParserInv s)
    (h : feedRecord chars s = .next t) : ParserInv t :=
  feedUntilDone_keeps execFeed_keeps_inv hs h

/-- What a reset leaves: no type latched, the phase AwaitStart, and a payload within the buffer. -/
theorem parserInv_of_awaitStart_invalid (hBuf : Memory.wf s.buf)
    (hLen : s.payLen.toNat ≤ Config.maxPayload) (hPhase : s.phase = .awaitStart)
    (hType : s.recType = .invalid) : ParserInv s where
  bufWf := hBuf
  payLenBound := hLen
  countBound := by simp [hPhase]
  payloadWritten := by simp [hType]
  midFlight := by simp [hPhase]
  checksumTyped := by simp [hPhase]
  readySum := by simp [ready_eq_false_of_invalid hType]

theorem exec_keeps_inv {i : Instr} (hs : ParserInv s) (h : exec i s = .next t) : ParserInv t := by
  rcases exec_effect h with ⟨_, hFeed, -⟩ | ⟨_, hRec, -⟩ | ⟨-, rfl⟩ | ⟨r, rfl, -⟩
  · exact hFeed.keeps_inv hs
  · exact feedRecord_keeps_inv hs hRec
  · exact parserInv_of_awaitStart_invalid hs.bufWf hs.payLenBound rfl rfl
  · exact hs.of_sameParser (sameParser_respond r s)

end

/-- Settles O46: hardware reset leaves an empty buffer and no latched type. -/
theorem invariantHoldsAtReset : Obligations.InvariantHoldsAtReset :=
  parserInv_of_awaitStart_invalid reset_buf_wf (by decide) rfl rfl

/-- Settles O47: the step idles, resets, or runs an instruction or a record on the same parser with a
cycle off the host's list; each of them keeps the invariant. -/
theorem stepKeepsTheInvariant : Obligations.StepKeepsTheInvariant := by
  intro s t hs h
  have hFetched : ∀ l, ParserInv { s with input := l } := fun l =>
    hs.of_sameParser (sameParser_input s l)
  rcases step_effect h with ⟨u, rfl, rfl | ⟨c, rest, -, rfl⟩⟩ | ⟨c, rest, -, -, rfl⟩ |
    ⟨c, rest, i, -, -, -, -, hExec⟩ | ⟨c, rest, -, ⟨chars, hRec⟩ | ⟨r, rfl⟩⟩
  · exact hs.of_sameParser (sameParser_respond _ _)
  · exact (hFetched rest).of_sameParser (sameParser_respond _ _)
  · exact parserInv_of_awaitStart_invalid (hardwareReset_buf_wf _) (by simp) rfl rfl
  · exact exec_keeps_inv (hFetched rest) hExec
  · exact feedRecord_keeps_inv (hFetched rest) hRec
  · exact (hFetched rest).of_sameParser (sameParser_respond _ _)

section
variable {s : State} {p : Phase} {chunk : List Char8}

/-- R71: in another phase than its own a dispatch row stands for nothing (log entry 7). -/
theorem exec_dispatchRow_of_ne (hp : s.phase ≠ p) :
    exec (dispatchRow p chunk) s = .refused (.notDispatched p) := by
  cases p <;> exact if_neg hp

/-- Where the invariant holds the reported length lies within the buffer. -/
theorem ParserInv.reportedLength_le (hs : ParserInv s) :
    (reportedLength s).toNat ≤ Config.maxPayload := (reportedLength_le_payLen s).trans hs.payLenBound

/-- Where the invariant holds a dispatch row completes or is refused by name. -/
theorem ParserInv.exec_dispatchRow (hs : ParserInv s) (p : Phase) (chunk : List Char8) :
    (∃ t, exec (dispatchRow p chunk) s = .next t) ∨
      ∃ r, exec (dispatchRow p chunk) s = .refused r := by
  by_cases hp : s.phase = p
  · rw [Machine.exec_dispatchRow hp]
    exact .inl (execFeed_completes hs.countBound)
  · exact .inr ⟨_, exec_dispatchRow_of_ne hp⟩

/-- Where the invariant holds a record of any characters is fed to an end. -/
theorem ParserInv.feedRecord_completes (hs : ParserInv s) (chars : List Char8) :
    ∃ t, feedRecord chars s = .next t :=
  feedUntilDone_completes execFeed_keeps_inv (fun _ hu => hu.countBound) 7 chars hs

/-- Where the invariant holds every instruction answers a next state, but for a dispatch row, which may
also be refused. -/
theorem ParserInv.exec_completes (hs : ParserInv s) (i : Instr) :
    (∃ t, exec i s = .next t) ∨ (i.row.format = .feed ∧ ∃ r, exec i s = .refused r) := by
  cases i with
  | feed chunk => exact .inl (execFeed_completes hs.countBound)
  | charStart => exact .inl (execFeed_completes hs.countBound)
  | feedStart chunk => exact (hs.exec_dispatchRow .awaitStart chunk).imp_right (⟨rfl, ·⟩)
  | feedCount chunk => exact (hs.exec_dispatchRow .awaitByteCount chunk).imp_right (⟨rfl, ·⟩)
  | feedAddr chunk => exact (hs.exec_dispatchRow .awaitAddress chunk).imp_right (⟨rfl, ·⟩)
  | feedType chunk => exact (hs.exec_dispatchRow .awaitRecordType chunk).imp_right (⟨rfl, ·⟩)
  | feedData chunk => exact (hs.exec_dispatchRow .awaitData chunk).imp_right (⟨rfl, ·⟩)
  | feedCsum chunk => exact (hs.exec_dispatchRow .awaitChecksum chunk).imp_right (⟨rfl, ·⟩)
  | feedErr chunk => exact (hs.exec_dispatchRow .error chunk).imp_right (⟨rfl, ·⟩)
  | getRecord => exact .inl ⟨_, exec_getRecord_of_le hs.reportedLength_le⟩
  | recData bb ah al dd cc => exact .inl (hs.feedRecord_completes _)
  | recEof bb ah al cc => exact .inl (hs.feedRecord_completes _)
  | _ => exact .inl ⟨_, rfl⟩

end

/-- Settles O49: the one instruction that may not complete is a refused dispatch row. -/
theorem everyOperationCompletes : Obligations.EveryOperationCompletes := fun i _ hs hRow =>
  (hs.exec_completes i).resolve_right fun hRefused => hRow hRefused.1

theorem noFault_next (t : State) : NoFault (.next t) := nofun
theorem noFault_refused (r : Refusal) : NoFault (.refused r) := nofun

theorem ParserInv.exec_noFault {s : State} (hs : ParserInv s) (i : Instr) : NoFault (exec i s) := by
  rcases hs.exec_completes i with ⟨t, h⟩ | ⟨-, r, h⟩
  · exact h ▸ noFault_next t
  · exact h ▸ noFault_refused r

/-- A code word without a row is fed, put through the decoder, or refused; none of them faults. -/
theorem ParserInv.execUndecoded_noFault {s : State} (hs : ParserInv s) (word : CodeWord) :
    NoFault (execUndecoded word s) := by
  cases word with
  | op _ _ _ => exact noFault_refused _
  | feed _ _ _ => exact noFault_refused _
  | record chars =>
    obtain ⟨t, h⟩ := hs.feedRecord_completes chars
    exact (h ▸ noFault_next t : NoFault (feedRecord chars s))
  | char c => exact noFault_next _

/-- Settles O48: the cases of `step`. -/
theorem noStepFaults : Obligations.NoStepFaults := by
  intro s hs
  unfold step fetchCycle
  cases hi : s.input with
  | nil => exact noFault_next _
  | cons c rest =>
    have hFetched := hs.of_sameParser (sameParser_input s rest)
    dsimp only
    split
    · exact noFault_next _
    split
    · split
      · exact hFetched.exec_noFault _
      · exact hFetched.execUndecoded_noFault _
    · exact noFault_next _

end Sys2Proof.Machine
end

section
/-! FEED across its phases, and the dispatch rows (spec/41_feed.md, spec/30_encoding.md R71). -/

namespace Sys2Proof.Machine

theorem all_isHexDigit_eq_false {chunk : List Char8} (h : ∃ c ∈ chunk, isHexDigit c = false) :
    chunk.all isHexDigit = false := by
  rw [List.all_eq_false]
  simpa using h

/-- Settles O26: the hex check is the first thing each of the four phases does with a chunk of the
right length. -/
theorem nonHexCharacterFails : Obligations.NonHexCharacterFails := by
  intro s chunk hPhase hLen hBad
  have hHex := all_isHexDigit_eq_false hBad
  rcases hPhase with hp | hp | hp | hp
  · exact exec_fails_of_phaseField hp rfl (.inl rfl) hLen (countField_of_not_hex hHex)
  · exact exec_fails_of_phaseField hp rfl (.inl rfl) hLen (addrField_of_not_hex hHex)
  · exact exec_fails_of_phaseField hp rfl (.inl rfl) hLen (dataField_of_not_hex hHex)
  · exact exec_fails_of_phaseField hp rfl (.inl rfl) hLen (csumField_of_not_hex hHex)

/-- Settles O29: the seven pairs are `dispatchRow` and its phase. -/
theorem dispatchRowsAreFeedInTheirPhase : Obligations.DispatchRowsAreFeedInTheirPhase := by
  intro s chunk i p h
  have hi : i = dispatchRow p chunk := by
    simp only [List.mem_cons, List.not_mem_nil, or_false, Prod.mk.injEq] at h
    rcases h with ⟨rfl, rfl⟩ | ⟨rfl, rfl⟩ | ⟨rfl, rfl⟩ | ⟨rfl, rfl⟩ | ⟨rfl, rfl⟩ | ⟨rfl, rfl⟩ |
      ⟨rfl, rfl⟩ <;> rfl
  rw [hi]
  exact ⟨exec_dispatchRow, exec_dispatchRow_of_ne⟩

/-- Only AwaitStart asks for one character: every other request is even (R29). -/
theorem expect_ne_one {s : State} (h : s.phase ≠ .awaitStart) : expect s ≠ 1 := by
  unfold expect
  split
  case h_1 hp => exact absurd hp h
  all_goals omega

/-- Settles O30: CHAR.START is FEED of ":", whose three cases are those of a chunk of one
character. -/
theorem startDelimiterRow : Obligations.StartDelimiterRow := fun s =>
  ⟨fun hp => (feedInAwaitStart s [startDelimiter] (.feed _) hp (.inl rfl)).1 rfl,
    fun hp => feedInErrorIsInert s [startDelimiter] (.feed _) hp (.inl rfl),
    fun hStart hErr => (wrongLengthFails s [startDelimiter] hErr).1 (expect_ne_one hStart).symm⟩

/-- Settles O31: the type field opens a data phase that asks for twice no characters, and the empty
field decodes to no bytes. -/
theorem emptyDataFieldIsFedAsEmptyChunk : Obligations.EmptyDataFieldIsFedAsEmptyChunk := by
  intro s hp hZero
  have hCount : s.expCount.toNat = 0 := congrArg BitVec.toNat hZero
  have hType := (feedInAwaitRecordType s [charZero, charZero] _ hp (.inl rfl)).1 rfl (by omega)
  have hData := (exec_eq_phaseField (p := .awaitData) (n := 0) (chunk := [])
      (s := { s with phase := .awaitData, rsp := .request (2 * s.expCount.toNat) }) rfl
      (by simp [expect, hCount]) (.inl rfl) rfl).trans
    (dataField_of_bytes decodeBytes_nil (by show s.expCount.toNat ≤ 50; omega))
  exact ⟨_, _, hType, by simp [hCount], rfl, hData, rfl, rfl, rfl, hZero, rfl, rfl, rfl⟩

/-- Settles O58: the delimiter clears the type, and a type that is not Data reports no payload. -/
theorem nextStartDelimiterHidesTheRecord : Obligations.NextStartDelimiterHidesTheRecord := by
  intro s t hReady h
  have hp := ((ready_iff s).mp hReady).1
  have hStart := (feedInAwaitStart s [startDelimiter] _ hp (.inl rfl)).1 rfl
  obtain rfl := Host.Outcome.next.inj (hStart.symm.trans h)
  exact ⟨ready_eq_false_of_invalid rfl, rfl, rfl, rfl, rfl, rfl,
    exec_getRecord_of_le (Nat.zero_le _)⟩

/-- R29: no request is wider than twice the count, or four characters. -/
theorem expect_le {s : State} {n : Nat} (h : s.phase = .awaitData → s.expCount.toNat ≤ n) :
    expect s ≤ max 4 (2 * n) := by
  unfold expect
  split
  case h_5 hp => have := h hp; omega
  all_goals omega

/-- Settles O59: under the invariant the widest request is twice 50. -/
theorem chunkBeyondTheLanesFailsOnLength : Obligations.ChunkBeyondTheLanesFailsOnLength := by
  intro s chunk hs
  have hExpect : expect s ≤ 100 := expect_le hs.countBound
  exact ⟨hExpect, fun hLen hErr => (wrongLengthFails s chunk hErr).1 (by omega)⟩

end Sys2Proof.Machine
end

section
/-! The queries, RESET and the reserved codes on the port (spec/42_query.md, spec/43_reset.md,
spec/30_encoding.md R73, R79). -/

namespace Sys2Proof.Machine

section
variable {s t : State}

/-- R122: GET_RECORD answers only within the buffer, and then the record. -/
theorem exec_getRecord_eq_next (h : exec .getRecord s = .next t) :
    (reportedLength s).toNat ≤ Config.maxPayload ∧ t = respond (.record (recordOf s)) s := by
  by_cases hLen : (reportedLength s).toNat ≤ Config.maxPayload
  · exact ⟨hLen, (Host.Outcome.next.inj ((exec_getRecord_of_le hLen).symm.trans h)).symm⟩
  · have hFault : exec .getRecord s = .fault .bufferIndex := if_pos (by omega)
    cases hFault.symm.trans h

/-- R49: a query answers a response, and the same one where only the response differs. -/
theorem exec_query {i : Instr} (hi : i = .isReady ∨ i = .getError ∨ i = .getRecord ∨ i = .getType)
    (h : exec i s = .next t) : ∃ r, t = respond r s ∧ exec i t = .next t := by
  rcases hi with rfl | rfl | rfl | rfl
  case inr.inr.inl =>
    obtain ⟨hLen, rfl⟩ := exec_getRecord_eq_next h
    exact ⟨_, rfl, exec_getRecord_of_le hLen⟩
  all_goals
    obtain rfl := Host.Outcome.next.inj h
    exact ⟨_, rfl, rfl⟩

end

/-- Settles O36: the lanes read the payload of `recordOf`, a list of the reported length. -/
theorem payloadLanesStopAtTheLength : Obligations.PayloadLanesStopAtTheLength := by
  intro s t h
  obtain ⟨hLen, rfl⟩ := exec_getRecord_eq_next h
  exact ⟨reportedLength s, rfl, hLen, fun k hk => bufBytes_getElem? hk,
    fun k hk => List.getElem?_eq_none (by simpa [recordOf] using hk)⟩

/-- Settles O37: a query only responds. -/
theorem queriesChangeNothing : Obligations.QueriesChangeNothing := by
  intro s t i hi h
  obtain ⟨r, rfl, hAgain⟩ := exec_query hi h
  exact ⟨sameParser_respond r s, rfl, rfl, rfl, hAgain⟩

/-- Settles O39: `resetParser` writes constants only, AwaitStart among them. -/
theorem resetIsIdempotentAndReopens : Obligations.ResetIsIdempotentAndReopens := by
  intro s t h
  obtain rfl := Host.Outcome.next.inj h
  exact ⟨rfl, _, (feedInAwaitStart _ [startDelimiter] _ rfl (.inl rfl)).1 rfl, rfl, rfl⟩

/-- Settles O40: both codes are `ignored`. -/
theorem reservedCodesAreIgnored : Obligations.ReservedCodesAreIgnored := by
  rintro s i (rfl | rfl) <;> rfl

/-- Settles O45: the outputs are the flags and the request, whose width of 16 bits holds twice any
byte count. -/
theorem statusOutputs : Obligations.StatusOutputs := by
  intro s
  have hExclusive : ¬ (ready s = true ∧ err s = true) := by
    rw [ready_iff, err_iff]
    rintro ⟨⟨hStart, -⟩, hErr⟩
    cases hStart.symm.trans hErr
  have hExpect : expect s ≤ 2 * 255 := expect_le fun _ => Nat.le_of_lt_succ s.expCount.isLt
  refine ⟨hExclusive, ?_, ?_, ?_, ?_⟩
  · rw [← ready_iff, readyO]
    cases ready s <;> decide
  · rw [← err_iff, errorO]
    cases err s <;> decide
  · rw [reqO, BitVec.toNat_ofNat, Nat.mod_eq_of_lt (by omega)]
  · rw [typeO]
    cases s.recType <;> rfl

end Sys2Proof.Machine
end

section
/-! What each instruction may change, read off the list of its effects (spec/10_state.md). -/

namespace Sys2Proof.Machine

section
variable {s t : State} {i : Instr}

/-- Of an instruction other than a whole record three effects remain. -/
theorem exec_effect_of_not_record (hRow : isRecordRow i = false) (h : exec i s = .next t) :
    (∃ chunk, FeedEffect chunk s t ∧
      (s.phase = .awaitChecksum → t.phase = .awaitStart → i = .feed chunk ∨ i = .feedCsum chunk)) ∨
    (i = .reset ∧ t = resetParser s) ∨ ∃ r, t = respond r s := by
  rcases exec_effect h with ⟨chunk, hFeed, -, -, -, hCsum⟩ | ⟨_, -, -, hRec⟩ | hReset |
    ⟨r, hr, -⟩
  · exact .inl ⟨chunk, hFeed, hCsum⟩
  · exact absurd hRec (of_decide_eq_false hRow)
  · exact .inr (.inl hReset)
  · exact .inr (.inr ⟨r, hr⟩)

end

/-- Settles O41: each effect of a FEED that is no failure goes along the edge of its phase. -/
theorem cursorFollowsTheTransitionRelation : Obligations.CursorFollowsTheTransitionRelation := by
  intro i s t hRow h hMoved
  rcases exec_effect_of_not_record hRow h with ⟨chunk, hFeed, -⟩ | ⟨rfl, rfl⟩ | ⟨r, rfl⟩
  · cases hFeed with
    | inert _ => exact absurd rfl hMoved
    | failed c hp => exact .inr (.inl ⟨hp, rfl⟩)
    | start hp | count _ hp | address _ _ hp | typeData hp | typeEof hp | data _ hp | checksum _ hp =>
      exact .inr (.inr (by simp [hp]))
  · exact .inl ⟨rfl, rfl⟩
  · exact absurd rfl hMoved

/-- Settles O42: each effect of a FEED writes the registers of its phase. -/
theorem registersChangeOnlyWhereTheTableSays : Obligations.RegistersChangeOnlyWhereTheTableSays := by
  intro i s t hRow h
  rcases exec_effect_of_not_record hRow h with ⟨chunk, hFeed, -⟩ | ⟨rfl, rfl⟩ | ⟨r, rfl⟩
  · cases hFeed with
    | inert _ | failed _ _ => simp
    | start hp | count _ hp | address _ _ hp | typeData hp | typeEof hp | data _ hp | checksum _ hp =>
      simp [hp]
  · simp
  · simp

/-- Settles O43: of the effects of a FEED only the accepted checksum leads to AwaitStart, and it keeps
the type. -/
theorem readyIsSetOnlyByTheChecksum : Obligations.ReadyIsSetOnlyByTheChecksum := by
  intro i s t hRow h
  simp only [ready_iff]
  rcases exec_effect_of_not_record hRow h with ⟨chunk, hFeed, hCsum⟩ | ⟨rfl, rfl⟩ | ⟨r, rfl⟩
  · cases hFeed with
    | checksum c hp _ _ => exact ⟨fun _ _ => ⟨hp, chunk, hCsum hp rfl⟩, fun _ _ _ hType => ⟨rfl, hType⟩⟩
    | inert hp => simp [hp]
    | _ => simp
  · simp
  · exact ⟨fun hNot hReady => absurd ((ready_iff s).mpr hReady) (by simp [hNot]),
      fun hCsum hStart => by cases hCsum.symm.trans hStart⟩

/-- R116, R83: a whole record fed in phase Error leaves the parser as it is. -/
theorem feedRecord_sameParser_of_error {chars : List Char8} {s t : State} (hp : s.phase = .error)
    (h : feedRecord chars s = .next t) : SameParser s t := by
  refine feedUntilDone_keeps (P := SameParser s) (fun chunk u v hu hv => ?_) (.refl s) h
  have hInert := (execFeed_of_error (hu.1.trans hp)).symm.trans hv
  obtain rfl := Host.Outcome.next.inj hInert
  exact hu.trans (sameParser_respond _ u)

/-- In phase Error every instruction but RESET leaves the parser as it is (R151, R152). -/
theorem exec_sameParser_of_error {i : Instr} {s t : State} (hp : s.phase = .error)
    (h : exec i s = .next t) : SameParser s t ∨ i = .reset := by
  rcases exec_effect h with ⟨chunk, -, hFeed, -⟩ | ⟨_, hRec, -⟩ | ⟨hReset, -⟩ | ⟨r, rfl, -⟩
  · obtain rfl := Host.Outcome.next.inj ((execFeed_of_error hp).symm.trans hFeed)
    exact .inl (sameParser_respond _ s)
  · exact .inl (feedRecord_sameParser_of_error hp hRec)
  · exact .inr hReset
  · exact .inl (sameParser_respond r s)

/-- Settles O44: the cases of a step. -/
theorem errorPhaseIsTerminal : Obligations.ErrorPhaseIsTerminal := by
  intro s t hp h
  rcases step_effect h with ⟨u, rfl, rfl | ⟨c, rest, -, rfl⟩⟩ | ⟨c, rest, hi, hRst, rfl⟩ |
    ⟨c, rest, i, hi, -, hValid, hDecode, hExec⟩ | ⟨c, rest, -, ⟨chars, hRec⟩ | ⟨r, rfl⟩⟩
  · exact .inl (sameParser_respond _ _)
  · exact .inl (sameParser_input s rest)
  · exact .inr ⟨c, rest, hi, .inl hRst⟩
  · rcases exec_sameParser_of_error (s := { s with input := rest }) hp hExec with hSame | rfl
    · exact .inl ((sameParser_input s rest).trans hSame)
    · exact .inr ⟨c, rest, hi, .inr ⟨hValid, hDecode⟩⟩
  · exact .inl ((sameParser_input s rest).trans (feedRecord_sameParser_of_error hp hRec))
  · exact .inl (sameParser_input s rest)

end Sys2Proof.Machine
end

section
/-! What an instruction never looks at: the high bits of the accumulator (R24) and the unwritten bytes
of the buffer (R163). Both are one claim: two states that differ in the accumulator and in the index of
the unwritten bytes go on differing in these alone. -/

namespace Sys2Proof.Machine

/-- A relation of accumulators that addition keeps and the checksum's test does not see (R103). -/
structure AccCongruence (L : BitVec 16 → BitVec 16 → Prop) : Prop where
  refl : ∀ a, L a a
  add : ∀ {a b} (v : Byte), L a b → L (accAdd a v) (accAdd b v)
  test : ∀ {a b}, L a b → sumIsZero a = sumIsZero b

/-- Accumulators that agree in their low 8 bits (R24). -/
def SameLowBits (a b : BitVec 16) : Prop := b.setWidth 8 = a.setWidth 8

theorem accCongruence_sameLowBits : AccCongruence SameLowBits where
  refl _ := rfl
  add v h := accAdd_low_congr h v
  test h := (sumIsZero_congr h).symm

theorem accCongruence_eq : AccCongruence (Eq : BitVec 16 → BitVec 16 → Prop) where
  refl _ := rfl
  add v h := congrArg (accAdd · v) h
  test h := congrArg sumIsZero h

/-- The second state is the first but for a related accumulator and another index, by `f`, of the
unwritten bytes. -/
def Twin (L : BitVec 16 → BitVec 16 → Prop) (f : Nat → Nat) (s s' : State) : Prop :=
  ∃ a, L s.acc a ∧ s' = { s with acc := a, powerOns := f s.powerOns }

/-- Where the first outcome is a next state, so is the second, and the two are twins. -/
def TwinOutcome (L : BitVec 16 → BitVec 16 → Prop) (f : Nat → Nat)
    (o o' : Host.Outcome State Fault Refusal) : Prop :=
  ∀ t, o = .next t → ∃ t', o' = .next t' ∧ Twin L f t t'

section
variable {L : BitVec 16 → BitVec 16 → Prop} {f : Nat → Nat} {s s' : State} {chunk : List Char8}

theorem AccCongruence.addAll (hL : AccCongruence L) (vs : List Byte) :
    ∀ {a b}, L a b → L (accAddAll a vs) (accAddAll b vs) := by
  induction vs with
  | nil => exact id
  | cons v vs ih => exact fun h => ih (hL.add v h)

theorem Twin.next (h : Twin L f s s') : TwinOutcome L f (.next s) (.next s') := by
  rintro t ⟨⟩
  exact ⟨s', rfl, h⟩

theorem twinOutcome_fault (e : Fault) (o : Host.Outcome State Fault Refusal) :
    TwinOutcome L f (.fault e) o := nofun

theorem twinOutcome_refused (r : Refusal) (o : Host.Outcome State Fault Refusal) :
    TwinOutcome L f (.refused r) o := nofun

theorem Twin.phase_eq (h : Twin L f s s') : s'.phase = s.phase := by
  obtain ⟨a, -, rfl⟩ := h
  rfl

theorem Twin.expect_eq (h : Twin L f s s') : expect s' = expect s := by
  obtain ⟨a, -, rfl⟩ := h
  rfl

theorem Twin.ready_eq (h : Twin L f s s') : ready s' = ready s := by
  obtain ⟨a, -, rfl⟩ := h
  rfl

theorem Twin.err_eq (h : Twin L f s s') : err s' = err s := by
  obtain ⟨a, -, rfl⟩ := h
  rfl

theorem Twin.respond (h : Twin L f s s') (r : Response) :
    Twin L f (respond r s) (Machine.respond r s') := by
  obtain ⟨a, ha, rfl⟩ := h
  exact ⟨a, ha, rfl⟩

theorem Twin.raiseError (h : Twin L f s s') (c : Cause) :
    TwinOutcome L f (.next (raiseError c s)) (.next (Machine.raiseError c s')) := by
  obtain ⟨a, ha, rfl⟩ := h
  exact Twin.next ⟨a, ha, rfl⟩

end

/-! The work of each phase on twins: the characters decide alike, and the accumulators stay related. -/

section
variable {L : BitVec 16 → BitVec 16 → Prop} {f : Nat → Nat} {s s' : State} (chunk : List Char8)

theorem startField_twin (hL : AccCongruence L) (h : Twin L f s s') :
    TwinOutcome L f (startField chunk s) (startField chunk s') := by
  unfold startField
  split
  · split
    · obtain ⟨a, ha, rfl⟩ := h
      exact Twin.next ⟨0#16, hL.refl _, rfl⟩
    · exact h.raiseError .start
  · exact h.raiseError .len

theorem countField_twin (hL : AccCongruence L) (h : Twin L f s s') :
    TwinOutcome L f (countField chunk s) (countField chunk s') := by
  unfold countField
  split
  · rename_i b _
    obtain ⟨a, ha, rfl⟩ := h
    exact Twin.next ⟨accAdd a b, hL.add b ha, rfl⟩
  · exact h.raiseError .hex

theorem addrField_twin (hL : AccCongruence L) (h : Twin L f s s') :
    TwinOutcome L f (addrField chunk s) (addrField chunk s') := by
  unfold addrField
  split
  · rename_i hi lo _
    obtain ⟨a, ha, rfl⟩ := h
    exact Twin.next ⟨accAdd (accAdd a hi) lo, hL.add lo (hL.add hi ha), rfl⟩
  · exact h.raiseError .hex

theorem typeField_twin (hL : AccCongruence L) (h : Twin L f s s') :
    TwinOutcome L f (typeField chunk s) (typeField chunk s') := by
  have hFail := h.raiseError
  obtain ⟨a, ha, rfl⟩ := h
  unfold typeField
  dsimp only
  split
  · split
    · exact hFail .count
    · exact Twin.next ⟨accAdd a 0#8, hL.add _ ha, rfl⟩
  split
  · exact Twin.next ⟨accAdd a 1#8, hL.add _ ha, rfl⟩
  · exact hFail .type

theorem dataField_twin (hL : AccCongruence L) (h : Twin L f s s') :
    TwinOutcome L f (dataField chunk s) (dataField chunk s') := by
  have hFail := h.raiseError
  obtain ⟨a, ha, rfl⟩ := h
  unfold dataField
  dsimp only
  split
  · rename_i bytes _
    split
    · exact twinOutcome_fault _ _
    · exact Twin.next ⟨accAddAll a bytes, hL.addAll bytes ha, rfl⟩
  · exact hFail .hex

theorem csumField_twin (hL : AccCongruence L) (h : Twin L f s s') :
    TwinOutcome L f (csumField chunk s) (csumField chunk s') := by
  have hFail := h.raiseError
  obtain ⟨a, ha, rfl⟩ := h
  unfold csumField
  dsimp only
  split
  · rename_i c _
    rw [← hL.test (hL.add c ha)]
    split
    · exact Twin.next ⟨accAdd a c, hL.add c ha, rfl⟩
    · exact hFail .csum
  · exact hFail .hex

theorem phaseField_twin (hL : AccCongruence L) (h : Twin L f s s') (p : Phase) :
    TwinOutcome L f (phaseField p chunk s) (phaseField p chunk s') := by
  cases p with
  | awaitStart => exact startField_twin chunk hL h
  | awaitByteCount => exact countField_twin chunk hL h
  | awaitAddress => exact addrField_twin chunk hL h
  | awaitRecordType => exact typeField_twin chunk hL h
  | awaitData => exact dataField_twin chunk hL h
  | awaitChecksum => exact csumField_twin chunk hL h
  | error => exact (h.respond _).next

/-- FEED on twins: the phase and the request are the same, so the same work is done or refused. -/
theorem execFeed_twin (hL : AccCongruence L) (h : Twin L f s s') :
    TwinOutcome L f (execFeed chunk s) (execFeed chunk s') := by
  by_cases hp : s.phase = .error
  · rw [execFeed_of_error hp, execFeed_of_error (h.phase_eq.trans hp)]
    exact (h.respond _).next
  by_cases hl : chunk.length = expect s
  · rw [execFeed_of_length_eq rfl hl, execFeed_of_length_eq h.phase_eq (hl.trans h.expect_eq.symm)]
    exact phaseField_twin chunk hL h _
  · rw [execFeed_of_length_ne hp hl,
      execFeed_of_length_ne (h.phase_eq ▸ hp) (h.expect_eq ▸ hl)]
    exact h.raiseError .len

/-- The loop of FEEDREC on twins, by induction on its bound. -/
theorem feedUntilDone_twin (hL : AccCongruence L) : ∀ (fuel : Nat) (chars : List Char8) {s s' : State},
    Twin L f s s' → TwinOutcome L f (feedUntilDone fuel chars s) (feedUntilDone fuel chars s')
  | 0, _, _, _, h => h.next
  | fuel + 1, chars, s, s', h => by
    unfold feedUntilDone
    rw [h.expect_eq]
    cases hFeed : execFeed (chars.take (expect s)) s with
    | next t =>
      obtain ⟨t', hFeed', hTwin⟩ := execFeed_twin _ hL h t hFeed
      dsimp only
      rw [hFeed']
      dsimp only
      rw [hTwin.err_eq, hTwin.ready_eq]
      split
      · exact hTwin.next
      · exact feedUntilDone_twin hL fuel _ hTwin
    | fault e => exact twinOutcome_fault e _
    | refused r => exact twinOutcome_refused r _

/-- A dispatch row on twins: selected in both, or refused in both. -/
theorem dispatchRow_twin (hL : AccCongruence L) (h : Twin L f s s') (p : Phase) :
    TwinOutcome L f (exec (dispatchRow p chunk) s) (exec (dispatchRow p chunk) s') := by
  by_cases hp : s.phase = p
  · rw [exec_dispatchRow hp, exec_dispatchRow (h.phase_eq.trans hp)]
    exact execFeed_twin chunk hL h
  · rw [exec_dispatchRow_of_ne hp]
    exact twinOutcome_refused _ _

/-- Twins whose payload reads alike answer GET_RECORD alike. -/
theorem getRecord_twin (h : Twin L f s s')
    (hRead : ∀ k, k < (reportedLength s).toNat → bufByte s' k = bufByte s k) :
    TwinOutcome L f (exec .getRecord s) (exec .getRecord s') := by
  intro t ht
  obtain ⟨hLen, rfl⟩ := exec_getRecord_eq_next ht
  obtain ⟨a, ha, rfl⟩ := h
  have hBytes := List.map_congr_left fun k hk => hRead k (List.mem_range.mp hk)
  refine ⟨_, exec_getRecord_of_le hLen, a, ha, ?_⟩
  have hRecord : recordOf { s with acc := a, powerOns := f s.powerOns } = recordOf s :=
    congrArg (Record.mk s.recType s.addr (reportedLength s)) hBytes
  rw [hRecord]
  rfl

/-- Every instruction takes twins to twins; only GET_RECORD reads the buffer. -/
theorem exec_twin (hL : AccCongruence L) (h : Twin L f s s')
    (hRead : ∀ k, k < (reportedLength s).toNat → bufByte s' k = bufByte s k) (i : Instr) :
    TwinOutcome L f (exec i s) (exec i s') := by
  cases i with
  | feed chunk => exact execFeed_twin chunk hL h
  | charStart => exact execFeed_twin _ hL h
  | feedStart chunk => exact dispatchRow_twin chunk hL h .awaitStart
  | feedCount chunk => exact dispatchRow_twin chunk hL h .awaitByteCount
  | feedAddr chunk => exact dispatchRow_twin chunk hL h .awaitAddress
  | feedType chunk => exact dispatchRow_twin chunk hL h .awaitRecordType
  | feedData chunk => exact dispatchRow_twin chunk hL h .awaitData
  | feedCsum chunk => exact dispatchRow_twin chunk hL h .awaitChecksum
  | feedErr chunk => exact dispatchRow_twin chunk hL h .error
  | recData bb ah al dd cc => exact feedUntilDone_twin hL 7 _ h
  | recEof bb ah al cc => exact feedUntilDone_twin hL 7 _ h
  | getRecord => exact getRecord_twin h hRead
  | reset =>
    obtain ⟨a, ha, rfl⟩ := h
    exact Twin.next ⟨0#16, hL.refl _, rfl⟩
  | isReady =>
    rw [exec_isReady, exec_isReady, h.ready_eq]
    exact (h.respond _).next
  | getError =>
    rw [exec_getError, exec_getError, h.err_eq]
    exact (h.respond _).next
  | getType =>
    obtain ⟨a, ha, rfl⟩ := h
    exact Twin.next ⟨a, ha, rfl⟩
  | _ => exact (h.respond _).next

end

/-- Settles O50: twins whose accumulators agree in the low 8 bits, over the same bytes. -/
theorem onlyTheLowAccumulatorBitsMatter : Obligations.OnlyTheLowAccumulatorBitsMatter := by
  intro i s t a ha h
  have hTwin : Twin SameLowBits id s { s with acc := a } := ⟨a, ha, rfl⟩
  obtain ⟨t', h', b, hb, rfl⟩ := exec_twin accCongruence_sameLowBits hTwin (fun _ _ => rfl) i t h
  exact ⟨b, hb, h'⟩

/-- A written byte reads the same whatever the unwritten ones are. -/
theorem bufByte_of_written {s : State} {k : Nat} {b : Byte} (h : Memory.read s.buf k = some b) :
    bufByte s k = b := by
  simp only [bufByte, h]

/-- Where the invariant holds, every byte that GET_RECORD reports has been written (R34). -/
theorem ParserInv.reported_written {s : State} (hs : ParserInv s) {k : Nat}
    (hk : k < (reportedLength s).toNat) : ∃ b, Memory.read s.buf k = some b := by
  by_cases hType : s.recType = .data
  · exact hs.payloadWritten hType k (reportedLength_of_data hType ▸ hk)
  · rw [reportedLength_of_ne_data hType] at hk
    exact absurd hk (Nat.not_lt_zero k)

/-- Settles O51: twins with one accumulator; what GET_RECORD reads of them has been written. -/
theorem unwrittenBytesAreNeverObserved : Obligations.UnwrittenBytesAreNeverObserved := by
  intro i s t p hs h
  have hTwin : Twin Eq (fun _ => p) s { s with powerOns := p } := ⟨s.acc, rfl, rfl⟩
  have hRead : ∀ k, k < (reportedLength s).toNat →
      bufByte { s with powerOns := p } k = bufByte s k := by
    intro k hk
    obtain ⟨b, hb⟩ := hs.reported_written hk
    exact (bufByte_of_written (s := { s with powerOns := p }) hb).trans (bufByte_of_written hb).symm
  obtain ⟨t', h', b, rfl, rfl⟩ := exec_twin accCongruence_eq hTwin hRead i t h
  exact h'

end Sys2Proof.Machine
end

section
/-! Whole records: what a REC row leaves, FEED by FEED (spec/30_encoding.md R60, R83). -/

namespace Sys2Proof.Machine

/-! The states that a record of legal fields runs through. -/

/-- After the start delimiter, the count and the address: `BB` and `AAAA` are held, no type yet. -/
def headerHeld (s : State) (n hi lo : Byte) : State :=
  accept { s with
    recType := .invalid, expCount := n, addr := joinAddr hi lo, acc := accAddAll 0#16 [n, hi, lo],
    phase := .awaitRecordType }

/-- After the data field of a Data record. -/
def dataHeld (s : State) (n hi lo : Byte) (ds : List Byte) : State :=
  accept { headerHeld s n hi lo with
    buf := Memory.writeBlock s.buf 0 ds, acc := accAddAll 0#16 ([n, hi, lo] ++ ds),
    recType := .data, payLen := n, phase := .awaitChecksum }

/-- After the type field of an End-of-File record. -/
def eofHeld (s : State) (n hi lo : Byte) : State :=
  accept { headerHeld s n hi lo with
    acc := accAddAll 0#16 [n, hi, lo, 1#8], recType := .endOfFile, phase := .awaitChecksum }

/-- What the checksum field `CC` leaves of a record held. -/
def checked (c : Byte) (s : State) : State :=
  if sumIsZero (accAdd s.acc c) then
    accept { s with acc := accAdd s.acc c, phase := .awaitStart }
  else raiseError .csum s

/-- A field's bytes are added after those before it (R103). -/
theorem accAddAll_append (a : BitVec 16) (bs cs : List Byte) :
    accAddAll a (bs ++ cs) = accAddAll (accAddAll a bs) cs := List.foldl_append

section
variable {s t : State} {fuel : Nat} {rest : List Char8}

/-- One FEED of the loop: a field of the requested length goes to its phase's work. -/
theorem feedUntilDone_field (p : Phase) {field : List Char8} (hField : phaseField p field s = .next t)
    (hp : s.phase = p) (hLen : field.length = expect s) (hErr : err t = false)
    (hReady : ready t = false) :
    feedUntilDone (fuel + 1) (field ++ rest) s = feedUntilDone fuel rest t := by
  have hTurn := feedUntilDone_turn (fuel := fuel) (chars := field ++ rest) (s := s) (t := t)
    (by rw [← hLen, List.take_left, execFeed_of_length_eq hp hLen, hField]) hErr hReady
  rwa [← hLen, List.drop_left] at hTurn

/-- The loop's last FEED. -/
theorem feedUntilDone_lastField (p : Phase) {field : List Char8}
    (hField : phaseField p field s = .next t) (hp : s.phase = p) (hLen : field.length = expect s)
    (hDone : err t = true ∨ ready t = true) :
    feedUntilDone (fuel + 1) (field ++ rest) s = .next t :=
  feedUntilDone_last (by rw [← hLen, List.take_left, execFeed_of_length_eq hp hLen, hField]) hDone

/-- The start delimiter, the count and the address of both layouts take three FEEDs. -/
theorem feedUntilDone_header {bb ah al : CharPair} {n hi lo : Byte} (hp : s.phase = .awaitStart)
    (hn : decodeByte bb.first bb.second = some n) (hHi : decodeByte ah.first ah.second = some hi)
    (hLo : decodeByte al.first al.second = some lo) :
    feedUntilDone (fuel + 3) ([startDelimiter] ++ ([bb.first, bb.second] ++
      ([ah.first, ah.second, al.first, al.second] ++ rest))) s =
      feedUntilDone fuel rest (headerHeld s n hi lo) := by
  refine Eq.trans (feedUntilDone_field .awaitStart startField_delimiter hp
    (expect_of_awaitStart hp).symm rfl rfl) ?_
  refine Eq.trans (feedUntilDone_field .awaitByteCount (countField_of_byte hn) rfl rfl rfl rfl) ?_
  exact feedUntilDone_field .awaitAddress (addrField_of_bytes hHi hLo) rfl rfl rfl rfl

/-- The type field of a Data record within the bound, and its data field. -/
theorem feedUntilDone_data {n hi lo : Byte} {dd : List Char8} {ds : List Byte}
    (hn : n.toNat ≤ Config.maxPayload) (hds : decodeBytes dd = some ds) (hLen : ds.length = n.toNat) :
    feedUntilDone (fuel + 2) ([charZero, charZero] ++ (dd ++ rest)) (headerHeld s n hi lo) =
      feedUntilDone fuel rest (dataHeld s n hi lo ds) := by
  have hField : dd.length = 2 * n.toNat := by rw [decodeBytes_length hds, hLen]
  refine Eq.trans (feedUntilDone_field .awaitRecordType (typeField_data hn) rfl rfl rfl rfl) ?_
  refine Eq.trans (feedUntilDone_field .awaitData (dataField_of_bytes hds hn) rfl hField rfl rfl) ?_
  rw [dataHeld, accAddAll_append]
  rfl

/-- The type field of an End-of-File record. -/
theorem feedUntilDone_eof {n hi lo : Byte} :
    feedUntilDone (fuel + 1) ([charZero, charOne] ++ rest) (headerHeld s n hi lo) =
      feedUntilDone fuel rest (eofHeld s n hi lo) :=
  feedUntilDone_field .awaitRecordType typeField_endOfFile rfl rfl rfl rfl

theorem checked_done (c : Byte) (hType : s.recType ≠ .invalid) :
    err (checked c s) = true ∨ ready (checked c s) = true := by
  unfold checked
  split
  · exact .inr ((ready_iff _).mpr ⟨rfl, hType⟩)
  · exact .inl rfl

/-- A checksum field of one byte ends the loop: the record is accepted or the parser is in Error. -/
theorem feedUntilDone_checksum {cc : CharPair} {c : Byte} (hp : s.phase = .awaitChecksum)
    (hType : s.recType ≠ .invalid) (hc : decodeByte cc.first cc.second = some c) :
    feedUntilDone (fuel + 1) ([cc.first, cc.second] ++ []) s = .next (checked c s) := by
  refine feedUntilDone_lastField .awaitChecksum ?_ hp (expect_of_awaitChecksum hp).symm
    (checked_done c hType)
  by_cases hSum : sumIsZero (accAdd s.acc c) = true
  · exact (csumField_of_sum_zero hc hSum).trans (by rw [checked, if_pos hSum])
  · exact (csumField_of_sum_ne_zero hc hSum).trans (by rw [checked, if_neg hSum])

/-- A checksum field that is no byte ends the loop in Error. -/
theorem feedUntilDone_badChecksum {cc : CharPair} (hp : s.phase = .awaitChecksum)
    (hc : decodeByte cc.first cc.second = none) :
    feedUntilDone (fuel + 1) ([cc.first, cc.second] ++ []) s = .next (raiseError .hex s) := by
  refine feedUntilDone_lastField .awaitChecksum ?_ hp (expect_of_awaitChecksum hp).symm (.inl rfl)
  show csumField [cc.first, cc.second] s = _
  simp only [csumField, decodeBytes, hc]

end

/-! The characters of a record are its fields, in the grouping the loop takes them. -/

theorem dataRecordChars_eq (bb ah al : CharPair) (dd : List Char8) (cc : CharPair) :
    dataRecordChars bb ah al dd cc = [startDelimiter] ++ ([bb.first, bb.second] ++
      ([ah.first, ah.second, al.first, al.second] ++ ([charZero, charZero] ++
        (dd ++ ([cc.first, cc.second] ++ []))))) := by
  simp [dataRecordChars]

theorem eofRecordChars_eq (bb ah al cc : CharPair) :
    eofRecordChars bb ah al cc = [startDelimiter] ++ ([bb.first, bb.second] ++
      ([ah.first, ah.second, al.first, al.second] ++ ([charZero, charOne] ++
        ([cc.first, cc.second] ++ [])))) := rfl

section
variable {s : State} {bb ah al cc : CharPair} {n hi lo c : Byte}

/-- A REC.DATA row from AwaitStart has its data field held before the checksum is looked at. -/
theorem exec_recData_eq {dd : List Char8} {ds : List Byte} (hp : s.phase = .awaitStart)
    (hn : decodeByte bb.first bb.second = some n) (hHi : decodeByte ah.first ah.second = some hi)
    (hLo : decodeByte al.first al.second = some lo) (hCount : n.toNat ≤ Config.maxPayload)
    (hds : decodeBytes dd = some ds) (hLen : ds.length = n.toNat) :
    exec (.recData bb ah al dd cc) s =
      feedUntilDone 2 ([cc.first, cc.second] ++ []) (dataHeld s n hi lo ds) := by
  show feedUntilDone 7 (dataRecordChars bb ah al dd cc) s = _
  rw [dataRecordChars_eq, feedUntilDone_header hp hn hHi hLo, feedUntilDone_data hCount hds hLen]

/-- A REC.DATA row with a count above the buffer's size ends in Error at its type field (D8). -/
theorem exec_recData_of_count {dd : List Char8} (hp : s.phase = .awaitStart)
    (hn : decodeByte bb.first bb.second = some n) (hHi : decodeByte ah.first ah.second = some hi)
    (hLo : decodeByte al.first al.second = some lo) (hCount : Config.maxPayload < n.toNat) :
    exec (.recData bb ah al dd cc) s = .next (raiseError .count (headerHeld s n hi lo)) := by
  show feedUntilDone 7 (dataRecordChars bb ah al dd cc) s = _
  rw [dataRecordChars_eq, feedUntilDone_header hp hn hHi hLo]
  exact feedUntilDone_lastField .awaitRecordType (typeField_count hCount) rfl rfl (.inl rfl)

theorem exec_recEof_eq (hp : s.phase = .awaitStart)
    (hn : decodeByte bb.first bb.second = some n) (hHi : decodeByte ah.first ah.second = some hi)
    (hLo : decodeByte al.first al.second = some lo) (hc : decodeByte cc.first cc.second = some c) :
    exec (.recEof bb ah al cc) s = .next (checked c (eofHeld s n hi lo)) := by
  show feedUntilDone 7 (eofRecordChars bb ah al cc) s = _
  rw [eofRecordChars_eq, feedUntilDone_header hp hn hHi hLo, feedUntilDone_eof]
  exact feedUntilDone_checksum rfl nofun hc

end

/-! What `checked` leaves. -/

section
variable {s : State} (c : Byte)

@[simp] theorem checked_expCount : (checked c s).expCount = s.expCount := by
  unfold checked; split <;> rfl
@[simp] theorem checked_addr : (checked c s).addr = s.addr := by
  unfold checked; split <;> rfl
@[simp] theorem checked_recType : (checked c s).recType = s.recType := by
  unfold checked; split <;> rfl
@[simp] theorem checked_payLen : (checked c s).payLen = s.payLen := by
  unfold checked; split <;> rfl
@[simp] theorem checked_buf : (checked c s).buf = s.buf := by
  unfold checked; split <;> rfl
@[simp] theorem checked_input : (checked c s).input = s.input := by
  unfold checked; split <;> rfl
@[simp] theorem checked_powerOns : (checked c s).powerOns = s.powerOns := by
  unfold checked; split <;> rfl

/-- The test of a sum that was begun at 0 is the sum's remainder (R103). -/
theorem sumIsZero_accAddAll_iff (bs : List Byte) :
    sumIsZero (accAdd (accAddAll 0#16 bs) c) = true ↔ ((bs.map BitVec.toNat).sum + c.toNat) % 256 = 0 := by
  rw [sumIsZero_accAdd_iff, accAddAll_eq, BitVec.zero_add, BitVec.toNat_ofNat]
  omega

/-- The checksum's verdict on a record whose bytes so far are `bs` (R115). -/
theorem checked_verdict {bs : List Byte} (hAcc : s.acc = accAddAll 0#16 bs)
    (hType : s.recType ≠ .invalid) :
    if ((bs.map BitVec.toNat).sum + c.toNat) % 256 = 0 then
      (checked c s).phase = .awaitStart ∧ ready (checked c s) = true ∧
        (checked c s).rsp = .request 1 ∧ (checked c s).draws = s.draws
    else (checked c s).phase = .error := by
  rw [checked, hAcc]
  simp only [← sumIsZero_accAddAll_iff]
  split
  · exact ⟨rfl, (ready_iff _).mpr ⟨rfl, hType⟩, rfl, rfl⟩
  · rfl

end

/-- Settles O52: the record's fields are held by `dataHeld`, whose accumulator is the sum of its bytes,
and `checked` decides on that sum. -/
theorem dataRecordIsAcceptedExactlyOnZeroSum : Obligations.DataRecordIsAcceptedExactlyOnZeroSum := by
  intro s bb ah al cc dd n hi lo c ds hp hn hCount hHi hLo hds hLen hc
  have hVerdict := checked_verdict (s := dataHeld s n hi lo ds) c rfl nofun
  have hSum : (([n, hi, lo] ++ ds).map BitVec.toNat).sum =
      n.toNat + hi.toNat + lo.toNat + (ds.map BitVec.toNat).sum := by
    simp [Nat.add_assoc]
  rw [hSum] at hVerdict
  have hBuf : (checked c (dataHeld s n hi lo ds)).buf = Memory.writeBlock s.buf 0 ds := checked_buf c
  refine ⟨_, (exec_recData_eq hp hn hHi hLo hCount hds hLen).trans (feedUntilDone_checksum rfl nofun hc),
    checked_expCount c, ?_, checked_recType c, checked_payLen c, checked_input c, checked_powerOns c,
    fun k hk => bufByte_writeBlock_of_lt hBuf (hLen ▸ hk),
    fun k hk => bufByte_writeBlock_of_ge hBuf (checked_powerOns c) (hLen ▸ hk), hVerdict⟩
  rw [checked_addr]
  exact joinAddr_toNat hi lo

/-- Settles O53: as for a Data record, with `eofHeld`. -/
theorem eofRecordIsAcceptedExactlyOnZeroSum : Obligations.EofRecordIsAcceptedExactlyOnZeroSum := by
  intro s bb ah al cc n hi lo c hp hn hHi hLo hc
  have hVerdict := checked_verdict (s := eofHeld s n hi lo) c rfl nofun
  have hSum : ([n, hi, lo, 1#8].map BitVec.toNat).sum = n.toNat + hi.toNat + lo.toNat + 1 := by
    simp [Nat.add_assoc]
  rw [hSum] at hVerdict
  refine ⟨_, exec_recEof_eq hp hn hHi hLo hc, checked_expCount c, ?_, checked_recType c,
    checked_payLen c, checked_buf c, checked_input c, checked_powerOns c, hVerdict⟩
  rw [checked_addr]
  exact joinAddr_toNat hi lo

/-- A ready Data record was short enough, and its checksum field was a byte. -/
theorem recData_ready_fields {s t : State} {bb ah al cc : CharPair} {dd : List Char8} {n hi lo : Byte}
    {ds : List Byte} (hp : s.phase = .awaitStart) (hn : decodeByte bb.first bb.second = some n)
    (hHi : decodeByte ah.first ah.second = some hi) (hLo : decodeByte al.first al.second = some lo)
    (hds : decodeBytes dd = some ds) (hLen : ds.length = n.toNat)
    (h : exec (.recData bb ah al dd cc) s = .next t) (hReady : ready t = true) :
    n.toNat ≤ Config.maxPayload ∧ ∃ c, decodeByte cc.first cc.second = some c := by
  have hNotRaised : ∀ cause u, t ≠ raiseError cause u := by
    rintro cause u rfl
    cases hReady
  have hCount : n.toNat ≤ Config.maxPayload := Nat.le_of_not_lt fun hLong =>
    hNotRaised _ _ (Host.Outcome.next.inj (h.symm.trans (exec_recData_of_count hp hn hHi hLo hLong)))
  refine ⟨hCount, ?_⟩
  cases hc : decodeByte cc.first cc.second with
  | some c => exact ⟨c, rfl⟩
  | none =>
    have hBad := (exec_recData_eq hp hn hHi hLo hCount hds hLen).trans (feedUntilDone_badChecksum rfl hc)
    exact absurd (Host.Outcome.next.inj (h.symm.trans hBad)) (hNotRaised _ _)

/-- Where the buffer reads as a Data record's bytes, GET_RECORD answers that record. -/
theorem exec_getRecord_of_data {t : State} {ds : List Byte} (hType : t.recType = .data)
    (hCount : t.payLen.toNat ≤ Config.maxPayload) (hLen : ds.length = t.payLen.toNat)
    (hRead : ∀ k, k < t.payLen.toNat → some (bufByte t k) = ds[k]?) :
    exec .getRecord t = .next (respond (.record ⟨.data, t.addr, t.payLen, ds⟩) t) := by
  have hBytes : bufBytes t t.payLen.toNat = ds := by
    refine List.ext_getElem (by simp [hLen]) fun k hk hk' => ?_
    have hGet := hRead k (hLen ▸ hk')
    rw [List.getElem?_eq_getElem hk'] at hGet
    simpa [bufBytes] using hGet
  have hReported := reportedLength_of_data hType
  rw [exec_getRecord_of_le (hReported ▸ hCount), recordOf, hReported, hBytes, hType]

/-- Settles O54: the accepted record is the one O52 describes. -/
theorem acceptedDataRecordIsReadBack : Obligations.AcceptedDataRecordIsReadBack := by
  intro s t bb ah al cc dd n hi lo ds hp hn hHi hLo hds hLen h hReady
  obtain ⟨hCount, c, hc⟩ := recData_ready_fields hp hn hHi hLo hds hLen h hReady
  obtain ⟨t', h', -, hAddr, hType, hPayLen, -, -, hRead, -⟩ :=
    dataRecordIsAcceptedExactlyOnZeroSum s bb ah al cc dd n hi lo c ds hp hn hCount hHi hLo hds hLen hc
  obtain rfl := Host.Outcome.next.inj (h.symm.trans h')
  subst hPayLen
  exact ⟨t.addr, hAddr, exec_getRecord_of_data hType hCount hLen hRead⟩

/-- Settles O57: RESET opens AwaitStart and keeps the buffer; the record is then the one O53
describes. -/
theorem resyncRecoversFromEveryState : Obligations.ResyncRecoversFromEveryState := by
  intro s bb ah al cc n hi lo c hn hHi hLo hc hSum
  obtain ⟨u, hExec, -, -, hType, -, hBuf, -, -, hVerdict⟩ :=
    eofRecordIsAcceptedExactlyOnZeroSum (resetParser s) bb ah al cc n hi lo c rfl hn hHi hLo hc
  rw [if_pos hSum] at hVerdict
  obtain ⟨hPhase, hReady, -, -⟩ := hVerdict
  exact ⟨resetParser s, u, exec_reset s, hExec, hReady,
    err_eq_false_of_phase_ne (by simp [hPhase]), hType, hBuf⟩

end Sys2Proof.Machine
end

section
/-! Whole records from any state: the loop of FEEDREC ends (R83), and a record fed in the middle of
another one fails (R102, R175). -/

namespace Sys2Proof.Machine

/-- How many FEEDs that do not fail lie between a state and a ready one, at most. A checksum phase
without a type leads to AwaitStart without a record, so a whole one is still to come. -/
def feedsToReady (s : State) : Nat :=
  match s.phase with
  | .awaitStart => 6
  | .awaitByteCount => 5
  | .awaitAddress => 4
  | .awaitRecordType => 3
  | .awaitData => 2
  | .awaitChecksum => if s.recType = .invalid then 7 else 1
  | .error => 0

theorem feedsToReady_le (s : State) : feedsToReady s ≤ 7 := by
  unfold feedsToReady
  split
  case h_6 => split <;> omega
  all_goals omega

theorem err_of_feedsToReady_eq_zero {s : State} (h : feedsToReady s = 0) : err s = true := by
  rw [err_iff]
  unfold feedsToReady at h
  split at h
  case h_6 => split at h <;> cases h
  case h_7 hp => exact hp
  all_goals cases h

/-- Every FEED ends the loop or comes nearer to its end. -/
theorem FeedEffect.done_or_nearer {chunk : List Char8} {s t : State} (h : FeedEffect chunk s t) :
    err t = true ∨ ready t = true ∨ feedsToReady t < feedsToReady s := by
  cases h with
  | inert hp => exact .inl ((err_iff _).mpr hp)
  | failed c _ => exact .inl rfl
  | checksum c hp _ _ =>
    by_cases hType : s.recType = .invalid
    · exact .inr (.inr (by simp [feedsToReady, hp, hType]))
    · exact .inr (.inl ((ready_iff _).mpr ⟨rfl, hType⟩))
  | start hp | count _ hp | address _ _ hp | typeData hp | typeEof hp | data _ hp =>
    exact .inr (.inr (by simp [feedsToReady, hp]))

section
variable {s t : State} {fuel : Nat} {chars : List Char8}

/-- A turn of the loop that answers has fed once; it stops where that FEED left Ready or Err, and goes
on where it left neither. -/
theorem feedUntilDone_succ_eq_next (h : feedUntilDone (fuel + 1) chars s = .next t) :
    ∃ u, FeedEffect (chars.take (expect s)) s u ∧ (err u = true ∨ ready u = true → t = u) ∧
      (err u = false → ready u = false →
        feedUntilDone fuel (chars.drop (expect s)) u = .next t) := by
  unfold feedUntilDone at h
  split at h
  · rename_i u hu
    refine ⟨u, execFeed_effect hu, fun hDone => ?_, fun hErr hReady => ?_⟩
    · rw [if_pos (by simpa using hDone)] at h
      exact (Host.Outcome.next.inj h).symm
    · rwa [if_neg (by simp [hErr, hReady])] at h
  · cases h
  · cases h

/-- With as many FEEDs as the state may need, the loop ends ready or in Error. -/
theorem feedUntilDone_done : ∀ {fuel : Nat} {chars : List Char8} {s : State},
    feedsToReady s ≤ fuel → feedUntilDone fuel chars s = .next t → ready t = true ∨ err t = true
  | 0, _, _, hFuel, h => by
    obtain rfl := Host.Outcome.next.inj h
    exact .inr (err_of_feedsToReady_eq_zero (Nat.le_zero.mp hFuel))
  | fuel + 1, _, s, hFuel, h => by
    obtain ⟨u, hFeed, hStop, hGo⟩ := feedUntilDone_succ_eq_next h
    by_cases hDone : err u = true ∨ ready u = true
    · exact hStop hDone ▸ hDone.symm
    · obtain ⟨hErr, hReady⟩ : err u = false ∧ ready u = false := by simpa using hDone
      have hNearer : feedsToReady u < feedsToReady s := by
        simpa [hErr, hReady] using hFeed.done_or_nearer
      exact feedUntilDone_done (by omega) (hGo hErr hReady)

/-- A REC row feeds characters that open with the start delimiter. -/
theorem exec_record {i : Instr} (hRow : isRecordRow i = true) (h : exec i s = .next t) :
    ∃ chars, feedUntilDone 7 chars s = .next t ∧ chars.head? = some startDelimiter := by
  have hFormat : i.row.format = .record := of_decide_eq_true hRow
  rcases exec_effect h with ⟨_, -, -, hNot, -⟩ | ⟨chars, hRec, hHead, -⟩ | ⟨rfl, -⟩ | ⟨_, -, hNot, -⟩
  · exact absurd hFormat hNot
  · exact ⟨chars, hRec, hHead⟩
  · cases hFormat
  · exact absurd hFormat hNot

/-- What neither a failing FEED nor the FEED of an empty data field writes: the buffer, the address and
the count; nor the host's script and the power-on index. -/
def HoldsPayload (s t : State) : Prop :=
  t.buf = s.buf ∧ t.addr = s.addr ∧ t.expCount = s.expCount ∧ t.input = s.input ∧
    t.powerOns = s.powerOns

theorem HoldsPayload.refl (s : State) : HoldsPayload s s := ⟨rfl, rfl, rfl, rfl, rfl⟩

theorem HoldsPayload.trans {u : State} (h : HoldsPayload s u) (h' : HoldsPayload u t) :
    HoldsPayload s t := by
  obtain ⟨h1, h2, h3, h4, h5⟩ := h
  obtain ⟨g1, g2, g3, g4, g5⟩ := h'
  exact ⟨g1.trans h1, g2.trans h2, g3.trans h3, g4.trans h4, g5.trans h5⟩

theorem decodeBytes_ne_some_of_delimiter {chunk : List Char8} {bs : List Byte}
    (hHead : chunk.head? = some startDelimiter) : decodeBytes chunk ≠ some bs := by
  intro h
  have hHex := List.all_eq_true.mp (decodeBytes_all_hex h) _ (List.mem_of_head? hHead)
  exact absurd hHex (by decide)

/-- The start delimiter is no part of any field but its own (R175). -/
theorem FeedEffect.fails_of_delimiter {chunk : List Char8} (h : FeedEffect chunk s t)
    (hHead : chunk.head? = some startDelimiter) (hp : s.phase ≠ .awaitStart) :
    t.phase = .error ∧ HoldsPayload s t := by
  cases h with
  | inert hErr => exact ⟨hErr, .refl s⟩
  | failed c _ => exact ⟨rfl, .refl s⟩
  | start hStart => exact absurd hStart hp
  | typeData _ hChunk | typeEof _ hChunk =>
    rw [hChunk] at hHead
    exact absurd hHead (by decide)
  | count _ _ hd | address _ _ _ hd | data _ _ hd | checksum _ _ hd =>
    exact absurd hd (decodeBytes_ne_some_of_delimiter hHead)

/-- Where at least one character is requested, the loop's first FEED carries the delimiter and is its
last. -/
theorem feedUntilDone_fails_of_delimiter (h : feedUntilDone (fuel + 1) chars s = .next t)
    (hHead : chars.head? = some startDelimiter) (hp : s.phase ≠ .awaitStart) (hAsk : expect s ≠ 0) :
    t.phase = .error ∧ HoldsPayload s t := by
  obtain ⟨u, hFeed, hStop, -⟩ := feedUntilDone_succ_eq_next h
  have hFails := hFeed.fails_of_delimiter (by rwa [List.head?_take, if_neg hAsk]) hp
  exact hStop (.inl ((err_iff u).mpr hFails.1)) ▸ hFails

/-- No character is requested in Error, and in the data phase of an empty record. -/
theorem phase_of_expect_eq_zero (h : expect s = 0) : s.phase = .error ∨ s.phase = .awaitData := by
  unfold expect at h
  split at h
  case h_5 hp => exact .inr hp
  case h_7 hp => exact .inl hp
  all_goals cases h

/-- The FEED of no characters fails, or completes an empty data phase. -/
theorem FeedEffect.of_empty (h : FeedEffect [] s t) (hp : s.phase = .error ∨ s.phase = .awaitData) :
    (t.phase = .error ∨ t.phase = .awaitChecksum) ∧ HoldsPayload s t := by
  cases h with
  | inert hErr => exact ⟨.inl hErr, .refl s⟩
  | failed c _ => exact ⟨.inl rfl, .refl s⟩
  | data bytes _ hd =>
    obtain rfl := Option.some.inj hd
    exact ⟨.inr rfl, .refl s⟩
  | start hPhase | count _ hPhase | address _ _ hPhase | typeData hPhase | typeEof hPhase
  | checksum _ hPhase => simp [hPhase] at hp

/-- A record fed to a phase other than AwaitStart: its delimiter fails at once, or in the checksum
phase after an empty data phase. -/
theorem feedUntilDone_fails_midRecord (h : feedUntilDone (fuel + 2) chars s = .next t)
    (hHead : chars.head? = some startDelimiter) (hp : s.phase ≠ .awaitStart) :
    t.phase = .error ∧ HoldsPayload s t := by
  by_cases hAsk : expect s = 0
  case neg => exact feedUntilDone_fails_of_delimiter h hHead hp hAsk
  obtain ⟨u, hFeed, hStop, hGo⟩ := feedUntilDone_succ_eq_next h
  rw [hAsk] at hFeed hGo
  obtain ⟨hErr | hCsum, hHolds⟩ := hFeed.of_empty (phase_of_expect_eq_zero hAsk)
  · exact hStop (.inl ((err_iff u).mpr hErr)) ▸ ⟨hErr, hHolds⟩
  · have hRest := hGo (err_eq_false_of_phase_ne (by simp [hCsum])) (by simp [ready, hCsum])
    obtain ⟨hErr, hHolds'⟩ := feedUntilDone_fails_of_delimiter hRest hHead (by simp [hCsum])
      (by simp [expect_of_awaitChecksum hCsum])
    exact ⟨hErr, hHolds.trans hHolds'⟩

end

/-- Settles O55: seven FEEDs are enough from every state. -/
theorem recordFeedingEndsReadyOrInError : Obligations.RecordFeedingEndsReadyOrInError := by
  intro i s t hRow h
  obtain ⟨chars, hRec, -⟩ := exec_record hRow h
  exact feedUntilDone_done (feedsToReady_le s) hRec

/-- Settles O56: the record's first character meets a phase that has no field for it, at once or
after an empty data phase. -/
theorem recordFedMidRecordFails : Obligations.RecordFedMidRecordFails := by
  intro i s t hRow hp h
  obtain ⟨chars, hRec, hHead⟩ := exec_record hRow h
  exact feedUntilDone_fails_midRecord hRec hHead hp

end Sys2Proof.Machine
end
